-- ==== Sys2Proof/Word.lean ====
section
/-! DEFINITION. The word types of the engine: bytes, the 32-bit words of core C32 and the 64-bit words of
core C64 (spec/00_scope.md R8, R11). Bit 0 is the least significant bit; every value is unsigned. -/

namespace Sys2Proof

/-- A byte of a payload, of the input buffer or of a digest. -/
abbrev Byte := BitVec 8

/-- A word of core C32, and a command word (R72). -/
abbrev Word32 := BitVec 32

/-- A word of core C64, and a stored state word (R8: every state word is stored 64 bits wide). -/
abbrev Word64 := BitVec 64

end Sys2Proof
end

