-- ==== Sys2Proof/Config.lean ====
section
/-! DEFINITION. What an implementation fixes and the spec leaves open. The spec leaves exactly one parameter
open (spec/92_eei_decisions.md D20, spec/93_implementation_defined.md I11), and takes no free value anywhere
(spec/95_test_vectors.md section 1.3: no draw is ever taken). -/

namespace Sys2Proof

/-- `cycles_per_command`, the OPEN timing parameter of D20 and R9. It has no value here and no definition of the
model reads it: the model has no time (R278; log entry 15). -/
opaque Config.cyclesPerCommand : Nat

end Sys2Proof
end

