-- ==== Sys2Proof/Syntax.lean ====
section
/-! DEFINITION. The commands of the engine: the six variants, the raw command a host presents, its fields, the
reasons a command is illegal, and `Instr`, one constructor per row of spec/opcode_table.json. -/

namespace Sys2Proof

/-- The six output variants, in the order of their VAR codes 0 to 5 (00_scope.md R7, 10_state.md R31). -/
inductive Variant where
  | sha224
  | sha256
  | sha384
  | sha512
  | sha512_224
  | sha512_256
deriving DecidableEq, Repr

/-- A command as the host presents it: the 32-bit word of the command channel and the byte sequence of the data
channel (30_encoding.md R70). The channel carries the payload's length (R75). -/
structure Command where
  word    : Word32
  payload : List Byte
deriving DecidableEq, Repr

/-- The fields of a command (30_encoding.md R72): OP = word[3:0], VAR = word[6:4], RSV = word[31:7], and the
payload. -/
structure Fields where
  op      : BitVec 4
  var     : BitVec 3
  rsv     : BitVec 25
  payload : List Byte
deriving DecidableEq, Repr

/-- Why a command decodes to ILLEGAL, one name per clause of 30_encoding.md R80. The engine does not record the
clause (60_exceptions.md R240): every one of them is the cause ILLEGAL_COMMAND. -/
inductive Illegal where
  /-- (a) OP is 0x0 or 0x5 to 0xF. -/
  | reservedOp
  /-- (b) RSV is not 0. -/
  | reservedBits
  /-- (c) OP is INIT and VAR is 6 or 7. -/
  | reservedVariant
  /-- (d) OP is not INIT and VAR is not 0. -/
  | variantOnOtherOp
  /-- (e) a non-empty payload with an OP that takes none. -/
  | unexpectedPayload
deriving DecidableEq, Repr

/-- The legal commands, one constructor per row of spec/opcode_table.json. UPDATE carries its payload D, its one
operand (41_update.md R102); the other commands have no operand but the variant their row names. -/
inductive Instr where
  | initSha224
  | initSha256
  | initSha384
  | initSha512
  | initSha512_224
  | initSha512_256
  | update (d : List Byte)
  | finalize
  | finalizeReset
deriving DecidableEq, Repr

/-- What a command decodes to: a legal command, or ILLEGAL with the clause that makes it so (R77). -/
inductive Decoded where
  | command (i : Instr)
  | illegal (why : Illegal)
deriving DecidableEq, Repr

end Sys2Proof
end

