-- ==== Sys2Proof/WellFormed.lean ====
section
/-! DEFINITION. When the fields of a command are well formed: the five conditions of 30_encoding.md R80, each the
negation of one of its clauses (a) to (e). -/

namespace Sys2Proof

/-- Not clause (a): OP is one of the four operation codes of R73. -/
def Fields.opLegal (f : Fields) : Bool := 1 ≤ f.op.toNat && f.op.toNat ≤ 4

/-- Not clause (b): the reserved bits are 0. -/
def Fields.rsvLegal (f : Fields) : Bool := f.rsv == 0

/-- Not clause (c): an INIT names one of the six variants. -/
def Fields.initVarLegal (f : Fields) : Bool := f.op != 1 || f.var.toNat ≤ 5

/-- Not clause (d): VAR is 0 for every OP but INIT. -/
def Fields.otherVarLegal (f : Fields) : Bool := f.op == 1 || f.var == 0

/-- Not clause (e): only an UPDATE carries a payload. -/
def Fields.payloadLegal (f : Fields) : Bool := f.op == 2 || f.payload.isEmpty

/-- A command's fields are well formed when none of the clauses of R80 holds. -/
def Fields.wellFormed (f : Fields) : Bool :=
  f.opLegal && f.rsvLegal && f.initVarLegal && f.otherVarLegal && f.payloadLegal

/-- The fields of a legal command, from the operation codes of R73 and the variant codes of R7. -/
def Instr.fields : Instr → Fields
  | .initSha224     => ⟨1, 0, 0, []⟩
  | .initSha256     => ⟨1, 1, 0, []⟩
  | .initSha384     => ⟨1, 2, 0, []⟩
  | .initSha512     => ⟨1, 3, 0, []⟩
  | .initSha512_224 => ⟨1, 4, 0, []⟩
  | .initSha512_256 => ⟨1, 5, 0, []⟩
  | .update d       => ⟨2, 0, 0, d⟩
  | .finalize       => ⟨3, 0, 0, []⟩
  | .finalizeReset  => ⟨4, 0, 0, []⟩

/-- An instruction is well formed when its fields are. Every instruction is: the type has no room for an illegal
field, and UPDATE takes a payload of any length (R75). -/
def Instr.wellFormed (i : Instr) : Bool := i.fields.wellFormed

end Sys2Proof
end

