-- ==== Sys2Proof/Decode.lean ====
section
/-! DEFINITION. Decoding a command (30_encoding.md R77) and encoding one (R72, R73, R78). Decoding is total on every
32-bit word and every payload, and names the clause of R80 for which it refuses. -/

namespace Sys2Proof

/-- The fields of a command word, as R72 lays them out. -/
def Command.split (c : Command) : Fields :=
  ⟨c.word.extractLsb' 0 4, c.word.extractLsb' 4 3, c.word.extractLsb' 7 25, c.payload⟩

/-- The command word whose fields are given: RSV above VAR above OP (R72). -/
def Fields.join (f : Fields) : Command := ⟨f.rsv ++ f.var ++ f.op, f.payload⟩

/-- The INIT row that a VAR code names; codes 6 and 7 name none (R7, R82). -/
def decodeInit (var : BitVec 3) : Decoded :=
  match var.toNat with
  | 0 => .command .initSha224
  | 1 => .command .initSha256
  | 2 => .command .initSha384
  | 3 => .command .initSha512
  | 4 => .command .initSha512_224
  | 5 => .command .initSha512_256
  | _ => .illegal .reservedVariant

/-- R77's decode on the fields, test by test in its order. R77 names no clause, and its one test `var > 5 or n != 0` of an
INIT does not separate R80 (c) from (e): for an INIT that breaks both, the model tests the payload first and names (e),
DESIGN CHOICE, log entry 22. No state and no response shows the clause. -/
def decodeFields (f : Fields) : Decoded :=
  if f.rsv ≠ 0 then .illegal .reservedBits
  else if f.op = 1 then
    if f.payload ≠ [] then .illegal .unexpectedPayload else decodeInit f.var
  else if f.var ≠ 0 then .illegal .variantOnOtherOp
  else if f.op = 2 then .command (.update f.payload)
  else if f.payload ≠ [] then .illegal .unexpectedPayload
  else if f.op = 3 then .command .finalize
  else if f.op = 4 then .command .finalizeReset
  else .illegal .reservedOp

/-- R77: decode a command. It reads no engine state. -/
def decode (c : Command) : Decoded := decodeFields c.split

/-- The command that a host presents for a legal instruction. -/
def encode (i : Instr) : Command := i.fields.join

/-- The command whose word has the bits `w` below bit `nbits` and zeros above, with an empty payload. -/
def tableCommand (nbits w : Nat) : Command := ⟨BitVec.ofNat 32 (w % 2 ^ nbits), []⟩

/-- The instruction that `decode` reads from the table word `w`. A command word is 32 bits and there is no longer
one (R72), so more than 32 bits are no instruction. -/
def decodeTableWord (nbits w : Nat) : Option Instr :=
  if nbits ≤ 32 then
    match decode (tableCommand nbits w) with
    | .command i => some i
    | .illegal _ => none
  else none

end Sys2Proof
end

