-- ==== Sys2Proof/Machine/State.lean ====
section
/-! DEFINITION. The state of one engine: the register inventory S0 to S13 of 10_state.md R33, the response channel
and the host's coming events, all of it plain data; the reasons a step stops; and the state after reset. -/

namespace Sys2Proof.Machine

/-- The life-cycle register `phase` (R30). -/
inductive Phase where
  | unconfigured
  | active
  | consumed
  | faulted
deriving DecidableEq, Repr

/-- The values of `fault_cause` (R32, R240): NONE and the four causes a fault can latch. -/
inductive Cause where
  | none
  | illegalCommand
  | notConfigured
  | useAfterFinalize
  | lengthOverflow
deriving DecidableEq, Repr

/-- The STATUS of a response (R74). Codes 6 and 7 are never produced. -/
inductive Status where
  | ok
  | illegalCommand
  | notConfigured
  | useAfterFinalize
  | lengthOverflow
  | engineFaulted
deriving DecidableEq, Repr

/-- A response: the pair (STATUS, DATA) of R74. -/
structure Response where
  status : Status
  data   : List Byte
deriving DecidableEq, Repr

/-- What the host may do to the engine (R258). -/
inductive HostEvent where
  /-- present a command (R70) -/
  | command (c : Command)
  /-- take the response that stands on the response channel (R71) -/
  | takeResponse
  /-- give the reset signal between commands (R270) -/
  | reset
  /-- present a command, and give the reset signal before its response (R271) -/
  | commandCutByReset (c : Command)
deriving DecidableEq, Repr

/-- The state of the engine and of its channels. -/
structure State where
  /-- S0..S7, the state words H[0..7] (R20) -/
  h           : Vector Word64 8
  /-- S8, the byte counter total_length (R23) -/
  totalLength : BitVec 128
  /-- S9, the input buffer buf[0..127] (R25) -/
  buf         : Vector Byte 128
  /-- S10, the fill cursor (R26) -/
  cursor      : BitVec 7
  /-- S11, the selected variant (R31) -/
  variant     : Variant
  /-- S12, the life-cycle phase (R30) -/
  phase       : Phase
  /-- S13, the first fault's cause (R32) -/
  faultCause  : Cause
  /-- the response channel: the response the host has not yet taken (R70 (3), R71, R74) -/
  response    : Option Response
  /-- the MODEL's own field: the host's coming events, the next one first (R70 (1), (2); log entry 3) -/
  inbox       : List HostEvent
deriving DecidableEq, Repr

/-- Reasons for which the machine would stop with a fault. There are none: a fault of this engine is a next state
with phase FAULTED and a response (R244), and a fault never blocks (R259). Nobody raises one. Safe. -/
inductive Fault where
deriving DecidableEq, Repr

/-- Reasons for which a step has no meaning. -/
inductive Refusal where
  /-- `exec` raises it for an instruction without a meaning; no arm of this model does. Safe. -/
  | notModelled (mnemonic : String)
  /-- `step` raises it when the host presents a command while the response to the previous one still stands on the
  response channel. The host breaks its duty and the spec gives the run no meaning (R71, R258; log entry 4). Safe. -/
  | responseNotTaken
deriving DecidableEq, Repr

/-- The state right after reset (R270): phase UNCONFIGURED and fault_cause NONE, which the spec gives. The spec gives
the other registers no value; the values here are the model's, DESIGN CHOICE, log entry 1. The channels are empty
(log entries 3 and 6). -/
def State.reset : State where
  h           := Vector.replicate 8 0
  totalLength := 0
  buf         := Vector.replicate 128 0
  cursor      := 0
  variant     := .sha224
  phase       := .unconfigured
  faultCause  := .none
  response    := .none
  inbox       := []

end Sys2Proof.Machine
end

