-- ==== Sys2Proof/Machine/Variants.lean ====
section
/-! DEFINITION. The variant configuration multiplexer (00_scope.md R7, R10; 45_variant.md R210): the record that the
`variant` register selects. It has no state of its own. -/

namespace Sys2Proof.Machine

/-- The two compression cores. -/
inductive CoreSel where
  | c32
  | c64
deriving DecidableEq, Repr

/-- The record of R7 for one variant. -/
structure Cfg where
  /-- which compression core -/
  core       : CoreSel
  /-- B, the block size in bytes -/
  blockBytes : Nat
  /-- L, the size of the length field in bytes -/
  lenBytes   : Nat
  /-- Wbits, the word width in bits -/
  wordBits   : Nat
  /-- R, the number of rounds -/
  rounds     : Nat
  /-- OUT, the digest length in bytes -/
  outBytes   : Nat
  /-- IV, the initial vector, zero-extended to 64 bits -/
  iv         : Vector Word64 8
deriving DecidableEq, Repr

/-- cfg(v) (R7, R210). -/
def cfg : Variant → Cfg
  | .sha224     => ⟨.c32, 64, 8, 32, 64, 28, iv224⟩
  | .sha256     => ⟨.c32, 64, 8, 32, 64, 32, iv256⟩
  | .sha384     => ⟨.c64, 128, 16, 64, 80, 48, iv384⟩
  | .sha512     => ⟨.c64, 128, 16, 64, 80, 64, iv512⟩
  | .sha512_224 => ⟨.c64, 128, 16, 64, 80, 28, iv512_224⟩
  | .sha512_256 => ⟨.c64, 128, 16, 64, 80, 32, iv512_256⟩

/-- LMAX(v), the longest message in bytes whose bit count fits the length field (R10). -/
def lmax (v : Variant) : Nat := 2 ^ (8 * (cfg v).lenBytes - 3) - 1

end Sys2Proof.Machine
end

