-- ==== Sys2Proof/Machine/Operands.lean ====
section
/-! DEFINITION. How bytes become words and words become bytes (00_scope.md R13, 20_memory.md R52, R53), and the
accesses to the input buffer (00_scope.md R14, 20_memory.md R51). Everything is big-endian. -/

namespace Sys2Proof.Machine

/-- `BE_N`: the number whose most significant byte stands first (R13), as an N-bit word. -/
def beWord (n : Nat) (bs : List Byte) : BitVec n :=
  BitVec.ofNat n (bs.foldl (fun acc b => acc * 256 + b.toNat) 0)

/-- The `k` low bytes of `x`, most significant first: `bytesBE_(8k)` (R13). -/
def beBytes : Nat → Nat → List Byte
  | 0,     _ => []
  | k + 1, x => BitVec.ofNat 8 (x / 256 ^ k) :: beBytes k x

/-- `bytesBE_N` of a word (R13). -/
def wordBytes {n : Nat} (x : BitVec n) : List Byte := beBytes (n / 8) x.toNat

/-- Word `j` of a block whose words are `wb` bytes (R53). -/
def blockWord (n wb : Nat) (blk : List Byte) (j : Nat) : BitVec n :=
  beWord n ((blk.drop (wb * j)).take wb)

/-- The 16 words M[0..15] of a block (R53, R121, R151). -/
def blockWords (n wb : Nat) (blk : List Byte) : List (BitVec n) :=
  (List.range 16).map (blockWord n wb blk)

/-- `BufRead(i, n)`: the n bytes of the buffer from index i (R14). -/
def bufRead (i n : Nat) (buf : Vector Byte 128) : List Byte := (buf.toList.drop i).take n

/-- `BufWrite(i, s)`: the bytes of s from index i on (R14). -/
def bufWrite : Nat → List Byte → Vector Byte 128 → Vector Byte 128
  | _, [],      buf => buf
  | i, b :: bs, buf => bufWrite (i + 1) bs (buf.setIfInBounds i b)

/-- `for k in i..<j: buf[k] <- 0x00` (R181). -/
def bufZero (i j : Nat) (buf : Vector Byte 128) : Vector Byte 128 :=
  bufWrite i (List.replicate (j - i) 0) buf

/-- The eight state words, each through `f`. -/
def mapWords {m n : Nat} (f : BitVec m → BitVec n) (h : Vector (BitVec m) 8) : Vector (BitVec n) 8 :=
  #v[f h[0], f h[1], f h[2], f h[3], f h[4], f h[5], f h[6], f h[7]]

end Sys2Proof.Machine
end

