-- ==== Sys2Proof/Machine/Flags.lean ====
section
/-! DEFINITION. The engine has no flags and no condition codes (10_state.md R34). Its only status state is `phase`
and `fault_cause`, and the only status a host reads is the STATUS of a response. Here are their codes. -/

namespace Sys2Proof.Machine

/-- The 2-bit code of a phase (R30). -/
def Phase.code : Phase → BitVec 2
  | .unconfigured => 0
  | .active       => 1
  | .consumed     => 2
  | .faulted      => 3

/-- The 3-bit code of a fault cause (R240). -/
def Cause.code : Cause → BitVec 3
  | .none             => 0
  | .illegalCommand   => 1
  | .notConfigured    => 2
  | .useAfterFinalize => 3
  | .lengthOverflow   => 4

/-- The 3-bit code of a response's STATUS (R74). -/
def Status.code : Status → BitVec 3
  | .ok               => 0
  | .illegalCommand   => 1
  | .notConfigured    => 2
  | .useAfterFinalize => 3
  | .lengthOverflow   => 4
  | .engineFaulted    => 5

/-- The STATUS with which a faulting command responds (R244: `respond(c, empty)`). `Cause.none` is raised by no
command. -/
def Cause.status : Cause → Status
  | .none             => .ok
  | .illegalCommand   => .illegalCommand
  | .notConfigured    => .notConfigured
  | .useAfterFinalize => .useAfterFinalize
  | .lengthOverflow   => .lengthOverflow

/-- The 3-bit code that the `variant` register holds (R7, R31). -/
def variantCode : Variant → BitVec 3
  | .sha224     => 0
  | .sha256     => 1
  | .sha384     => 2
  | .sha512     => 3
  | .sha512_224 => 4
  | .sha512_256 => 5

end Sys2Proof.Machine
end

