-- ==== Sys2Proof/Machine/Ops.lean ====
section
/-! DEFINITION. The named operations on the state that the commands share: responding, taking a fault and leaving
FAULTED by reset, the phase checks, and starting a message. -/

namespace Sys2Proof.Machine

/-- `respond(status, data)`: place the command's one response on the response channel (R14, R71, R74). -/
def respond (st : Status) (data : List Byte) (s : State) : State :=
  { s with response := some ⟨st, data⟩ }

/-- TAKING A FAULT: `raise Fault(c)` (60_exceptions.md R244). It latches the cause, moves the engine to FAULTED and
responds with the cause and no data. It writes nothing else: there is no vector, no handler and no saved register. -/
def raiseFault (c : Cause) (s : State) : State :=
  respond c.status [] { s with faultCause := c, phase := .faulted }

/-- A command that arrives while the engine is FAULTED (R246): it responds ENGINE_FAULTED and writes no register. -/
def engineFaulted (s : State) : State := respond .engineFaulted [] s

/-- THE RETURN FROM A FAULT, and the reset event in any phase (70_reset_and_hazards.md R270, R271; 60_exceptions.md
R247): phase UNCONFIGURED, fault_cause NONE, the other registers as `State.reset` names them (log entry 1). The
channels belong to the host and stay as they are (log entry 6). -/
def hardReset (s : State) : State :=
  { State.reset with response := s.response, inbox := s.inbox }

/-- An illegal command (R242, R243): in FAULTED it responds ENGINE_FAULTED, else it faults with ILLEGAL_COMMAND. -/
def illegalCommand (s : State) : State :=
  match s.phase with
  | .faulted      => engineFaulted s
  | .unconfigured => raiseFault .illegalCommand s
  | .active       => raiseFault .illegalCommand s
  | .consumed     => raiseFault .illegalCommand s

/-- The phase checks of an INIT (R241): accepted in every phase but FAULTED. -/
def acceptInit (perform : State → State) (s : State) : State :=
  match s.phase with
  | .faulted      => engineFaulted s
  | .unconfigured => perform s
  | .active       => perform s
  | .consumed     => perform s

/-- The phase checks of UPDATE, FINALIZE and FINALIZE_RESET (R241, in the order of R243): accepted in ACTIVE. -/
def acceptActive (perform : State → State) (s : State) : State :=
  match s.phase with
  | .faulted      => engineFaulted s
  | .unconfigured => raiseFault .notConfigured s
  | .consumed     => raiseFault .useAfterFinalize s
  | .active       => perform s

/-- Start an empty message of the selected variant: the common part of INIT (45_variant.md R212) and FINALIZE_RESET
(44_finalize.md R196). -/
def startMessage (s : State) : State :=
  { s with h := (cfg s.variant).iv, totalLength := 0, cursor := 0, buf := Vector.replicate 128 0 }

end Sys2Proof.Machine
end

