-- ==== Sys2Proof/Machine/Functions.lean ====
section
/-! DEFINITION. The word operators and the round functions of both cores (00_scope.md R12; 42_compress32.md R122 to
R127; 43_compress64.md R152 to R157). Addition of words is `+` of `BitVec`, modulo 2^N. -/

namespace Sys2Proof.Machine

/-- `rotr_N(x, r)` for 0 < r < N: `shr(x, r) or trunc_N(x * 2^(N-r))` (R12). -/
def rotr {n : Nat} (x : BitVec n) (r : Nat) : BitVec n := (x >>> r) ||| (x <<< (n - r))

/-- Ch (R127, R157). -/
def ch {n : Nat} (x y z : BitVec n) : BitVec n := (x &&& y) ^^^ (~~~x &&& z)

/-- Maj (R127, R157). -/
def maj {n : Nat} (x y z : BitVec n) : BitVec n := (x &&& y) ^^^ (x &&& z) ^^^ (y &&& z)

/-- σ0 of core C32 (R122). -/
def smallSigma0_32 (x : Word32) : Word32 := rotr x 7 ^^^ rotr x 18 ^^^ (x >>> 3)

/-- σ1 of core C32 (R123). -/
def smallSigma1_32 (x : Word32) : Word32 := rotr x 17 ^^^ rotr x 19 ^^^ (x >>> 10)

/-- Σ0 of core C32 (R125). -/
def bigSigma0_32 (x : Word32) : Word32 := rotr x 2 ^^^ rotr x 13 ^^^ rotr x 22

/-- Σ1 of core C32 (R126). -/
def bigSigma1_32 (x : Word32) : Word32 := rotr x 6 ^^^ rotr x 11 ^^^ rotr x 25

/-- σ0 of core C64 (R152). -/
def smallSigma0_64 (x : Word64) : Word64 := rotr x 1 ^^^ rotr x 8 ^^^ (x >>> 7)

/-- σ1 of core C64 (R153). -/
def smallSigma1_64 (x : Word64) : Word64 := rotr x 19 ^^^ rotr x 61 ^^^ (x >>> 6)

/-- Σ0 of core C64 (R155). -/
def bigSigma0_64 (x : Word64) : Word64 := rotr x 28 ^^^ rotr x 34 ^^^ rotr x 39

/-- Σ1 of core C64 (R156). -/
def bigSigma1_64 (x : Word64) : Word64 := rotr x 14 ^^^ rotr x 18 ^^^ rotr x 41

end Sys2Proof.Machine
end

