-- ==== Sys2Proof/Machine/Compress.lean ====
section
/-! DEFINITION. The two compression cores (42_compress32.md, 43_compress64.md) and CompressBlock (41_update.md R100).
The cores have one structure (R150: "Structurally identical to 4.2"), written once over the word width; what differs
between them is the record `CoreFns`. Both are total (R134, R164). -/

namespace Sys2Proof.Machine

/-- What distinguishes a core of word width n: its four sigma functions, its round constants (one per round) and its
word size in bytes. -/
structure CoreFns (n : Nat) where
  smallSigma0 : BitVec n → BitVec n
  smallSigma1 : BitVec n → BitVec n
  bigSigma0   : BitVec n → BitVec n
  bigSigma1   : BitVec n → BitVec n
  k           : List (BitVec n)
  wordBytes   : Nat

/-- Core C32: 64 rounds (R131). -/
def core32 : CoreFns 32 :=
  ⟨smallSigma0_32, smallSigma1_32, bigSigma0_32, bigSigma1_32, k32, 4⟩

/-- Core C64: 80 rounds (R161). -/
def core64 : CoreFns 64 :=
  ⟨smallSigma0_64, smallSigma1_64, bigSigma0_64, bigSigma1_64, k64, 8⟩

/-- The next schedule word from the words so far (R124, R154): with t their number,
W[t-16] + σ0(W[t-15]) + W[t-7] + σ1(W[t-2]). -/
def nextWord {n : Nat} (F : CoreFns n) (w : List (BitVec n)) : BitVec n :=
  w.getD (w.length - 16) 0 + F.smallSigma0 (w.getD (w.length - 15) 0) +
    w.getD (w.length - 7) 0 + F.smallSigma1 (w.getD (w.length - 2) 0)

/-- Extend a schedule by a number of words. -/
def extend {n : Nat} (F : CoreFns n) : Nat → List (BitVec n) → List (BitVec n)
  | 0,     w => w
  | m + 1, w => extend F m (w ++ [nextWord F w])

/-- The message schedule W of a block: its 16 words, extended to one word per round (R121, R124, R151, R154). -/
def schedule {n : Nat} (F : CoreFns n) (blk : List Byte) : List (BitVec n) :=
  extend F (F.k.length - 16) (blockWords n F.wordBytes blk)

/-- The working state a..h of the rounds (R129, R159). -/
structure Working (n : Nat) where
  a : BitVec n
  b : BitVec n
  c : BitVec n
  d : BitVec n
  e : BitVec n
  f : BitVec n
  g : BitVec n
  h : BitVec n
deriving DecidableEq, Repr

/-- The working state before round 0 is a copy of the state words (R129, R159). -/
def loadWorking {n : Nat} (h : Vector (BitVec n) 8) : Working n :=
  ⟨h[0], h[1], h[2], h[3], h[4], h[5], h[6], h[7]⟩

/-- T1 of a round with constant k and schedule word w (R130, R160). -/
def roundT1 {n : Nat} (F : CoreFns n) (x : Working n) (k w : BitVec n) : BitVec n :=
  x.h + F.bigSigma1 x.e + ch x.e x.f x.g + k + w

/-- T2 of a round (R130, R160). -/
def roundT2 {n : Nat} (F : CoreFns n) (x : Working n) : BitVec n :=
  F.bigSigma0 x.a + maj x.a x.b x.c

/-- One round: the eight new values from the old ones, assigned at once (R130, R160). -/
def roundStep {n : Nat} (F : CoreFns n) (x : Working n) (k w : BitVec n) : Working n :=
  ⟨roundT1 F x k w + roundT2 F x, x.a, x.b, x.c, x.d + roundT1 F x k w, x.e, x.f, x.g⟩

/-- All rounds, round t with the t-th constant and the t-th schedule word, in increasing order (R131, R161). -/
def runRounds {n : Nat} (F : CoreFns n) (x : Working n) (w : List (BitVec n)) : Working n :=
  (F.k.zip w).foldl (fun y kw => roundStep F y kw.1 kw.2) x

/-- The feed-forward: each state word plus its working word (R132, R162). -/
def feedForward {n : Nat} (h : Vector (BitVec n) 8) (x : Working n) : Vector (BitVec n) 8 :=
  #v[h[0] + x.a, h[1] + x.b, h[2] + x.c, h[3] + x.d, h[4] + x.e, h[5] + x.f, h[6] + x.g, h[7] + x.h]

/-- One compression of a block, on either core. -/
def compress {n : Nat} (F : CoreFns n) (h : Vector (BitVec n) 8) (blk : List Byte) :
    Vector (BitVec n) 8 :=
  feedForward h (runRounds F (loadWorking h) (schedule F blk))

/-- Compress32 (R120, R133). -/
def compress32 (h : Vector Word32 8) (blk : List Byte) : Vector Word32 8 := compress core32 h blk

/-- Compress64 (R150, R163). -/
def compress64 (h : Vector Word64 8) (blk : List Byte) : Vector Word64 8 := compress core64 h blk

/-- The compression of variant v on the stored words: C32 reads bits 31..0 of each word and writes its result
zero-extended (R21, R100); C64 uses the words whole. -/
def compressWith (v : Variant) (h : Vector Word64 8) (blk : List Byte) : Vector Word64 8 :=
  match (cfg v).core with
  | .c32 => mapWords (BitVec.setWidth 64) (compress32 (mapWords (BitVec.setWidth 32) h) blk)
  | .c64 => compress64 h blk

/-- CompressBlock(): compress `buf[0..B)` into H with the core the variant selects (R100). It writes only H. -/
def compressBlock (s : State) : State :=
  { s with h := compressWith s.variant s.h (bufRead 0 (cfg s.variant).blockBytes s.buf) }

/-- Compress the first m blocks of a byte sequence, in order (R22). -/
def compressBlocks (v : Variant) : Nat → List Byte → Vector Word64 8 → Vector Word64 8
  | 0,     _,  h => h
  | m + 1, bs, h =>
    compressBlocks v m (bs.drop (cfg v).blockBytes) (compressWith v h (bs.take (cfg v).blockBytes))

end Sys2Proof.Machine
end

