-- ==== Sys2Proof/Machine/Init.lean ====
section
/-! DEFINITION. INIT, one meaning for each of its six rows (45_variant.md R212, R213). -/

namespace Sys2Proof.Machine

/-- INIT(v) where it is accepted (R212): select the variant, start an empty message, become ACTIVE, respond OK. -/
def performInit (v : Variant) (s : State) : State :=
  respond .ok [] { startMessage { s with variant := v } with phase := .active }

/-- INIT.SHA224, word 0x00000001 (R212). -/
def execInitSha224 (s : State) : Host.Outcome State Fault Refusal :=
  .next (acceptInit (performInit .sha224) s)

/-- INIT.SHA256, word 0x00000011 (R212). -/
def execInitSha256 (s : State) : Host.Outcome State Fault Refusal :=
  .next (acceptInit (performInit .sha256) s)

/-- INIT.SHA384, word 0x00000021 (R212). -/
def execInitSha384 (s : State) : Host.Outcome State Fault Refusal :=
  .next (acceptInit (performInit .sha384) s)

/-- INIT.SHA512, word 0x00000031 (R212). -/
def execInitSha512 (s : State) : Host.Outcome State Fault Refusal :=
  .next (acceptInit (performInit .sha512) s)

/-- INIT.SHA512_224, word 0x00000041 (R212). -/
def execInitSha512_224 (s : State) : Host.Outcome State Fault Refusal :=
  .next (acceptInit (performInit .sha512_224) s)

/-- INIT.SHA512_256, word 0x00000051 (R212). -/
def execInitSha512_256 (s : State) : Host.Outcome State Fault Refusal :=
  .next (acceptInit (performInit .sha512_256) s)

end Sys2Proof.Machine
end

