-- ==== Sys2Proof/Machine/Update.lean ====
section
/-! DEFINITION. UPDATE and its byte step (41_update.md). -/

namespace Sys2Proof.Machine

/-- `buf[cursor] <- d`. -/
def storeByte (d : Byte) (s : State) : State :=
  { s with buf := s.buf.setIfInBounds s.cursor.toNat d }

/-- AbsorbByte(d) (R104): store the byte at the cursor and advance; when the block is full, compress it and start
again at 0. The value cursor = B is compared before it is stored: the register holds 7 bits (R26; log entry 12). -/
def absorbByte (d : Byte) (s : State) : State :=
  if s.cursor.toNat + 1 = (cfg s.variant).blockBytes then
    { compressBlock (storeByte d s) with cursor := 0 }
  else
    { storeByte d s with cursor := s.cursor + 1 }

/-- AbsorbByte on each byte of a payload, D[0] first (R54, R102). -/
def absorbAll : List Byte → State → State
  | [],      s => s
  | d :: ds, s => absorbAll ds (absorbByte d s)

/-- UPDATE(D) in ACTIVE (R102): the length check on the exact sum before any byte (R101), the byte steps, the counter
(R103), the response. -/
def performUpdate (d : List Byte) (s : State) : State :=
  if s.totalLength.toNat + d.length > lmax s.variant then raiseFault .lengthOverflow s
  else respond .ok []
    { absorbAll d s with totalLength := s.totalLength + BitVec.ofNat 128 d.length }

/-- UPDATE, word 0x00000002 (R102). -/
def execUpdate (d : List Byte) (s : State) : Host.Outcome State Fault Refusal :=
  .next (acceptActive (performUpdate d) s)

end Sys2Proof.Machine
end

