-- ==== Sys2Proof/Machine/Finalize.lean ====
section
/-! DEFINITION. The padding sequencer, digest assembly, FINALIZE and FINALIZE_RESET (44_finalize.md, 45_variant.md
R215). -/

namespace Sys2Proof.Machine

/-- The condition of Pad()'s step 2, `cursor + 1 > B - L`: the length field does not fit in this block (R183). -/
def padOverflows (s : State) : Bool :=
  s.cursor.toNat + 1 > (cfg s.variant).blockBytes - (cfg s.variant).lenBytes

/-- Pad() step 2 where the field does not fit: zero-fill the rest of the block (R183). -/
def padOverflowBlock (s : State) : State :=
  { s with buf := bufZero (s.cursor.toNat + 1) (cfg s.variant).blockBytes s.buf }

/-- Pad() steps 3 and 4 from the working cursor w: zero-fill up to B - L (R185) and write the bit count
8 * total_length as L big-endian bytes (R186). -/
def padLengthBlock (w : Nat) (s : State) : State :=
  let b := (cfg s.variant).blockBytes
  let l := (cfg s.variant).lenBytes
  { s with buf := bufWrite (b - l) (beBytes l (8 * s.totalLength.toNat)) (bufZero w (b - l) s.buf) }

/-- Pad() in full (R181): the terminator byte, an overflow block if the length field does not fit, then the final
block. The working cursor is 0 after an overflow block (R184) and cursor + 1 otherwise. -/
def pad (s : State) : State :=
  if padOverflows s then
    compressBlock (padLengthBlock 0 (compressBlock (padOverflowBlock (storeByte 0x80 s))))
  else
    compressBlock (padLengthBlock (s.cursor.toNat + 1) (storeByte 0x80 s))

/-- The digest that variant v takes from the state words: the first OUT(v) bytes of their big-endian concatenation,
each word as the core's own width (R215). -/
def digestOf (v : Variant) (h : Vector Word64 8) : List Byte :=
  match (cfg v).core with
  | .c32 => ((h.toList.map fun x => wordBytes (x.setWidth 32)).flatten).take (cfg v).outBytes
  | .c64 => ((h.toList.map fun x => wordBytes x).flatten).take (cfg v).outBytes

/-- AssembleDigest() (R215). It writes nothing. -/
def assembleDigest (s : State) : List Byte := digestOf s.variant s.h

/-- FINALIZE() in ACTIVE (R195). H, buf, cursor and total_length stay as Pad() leaves them (R193; log entry 9). -/
def performFinalize (s : State) : State :=
  respond .ok (assembleDigest (pad s)) { pad s with phase := .consumed }

/-- FINALIZE_RESET() in ACTIVE (R196): the digest is read before the restore; phase and variant stay. -/
def performFinalizeReset (s : State) : State :=
  respond .ok (assembleDigest (pad s)) (startMessage (pad s))

/-- FINALIZE, word 0x00000003 (R195). -/
def execFinalize (s : State) : Host.Outcome State Fault Refusal :=
  .next (acceptActive performFinalize s)

/-- FINALIZE_RESET, word 0x00000004 (R196). -/
def execFinalizeReset (s : State) : Host.Outcome State Fault Refusal :=
  .next (acceptActive performFinalizeReset s)

end Sys2Proof.Machine
end

