-- ==== Sys2Proof/Machine/Fetch.lean ====
section
/-! DEFINITION. Taking the host's next event (30_encoding.md R70, R71; 60_exceptions.md R243, R258; 70_reset_and_hazards.md
R270, R271). The engine fetches no instructions (R28): the next instruction is the command the host presents. -/

namespace Sys2Proof.Machine

/-- What the host's next event asks of the engine. -/
inductive Fetched where
  /-- the event is settled without running a command -/
  | settled (s : State)
  /-- the event has no meaning -/
  | refuse (r : Refusal)
  /-- a legal command is to run -/
  | run (i : Instr) (s : State)
deriving DecidableEq, Repr

/-- A command that arrives on a free response channel: a legal one is to run, an illegal one faults (R242). In FAULTED
both respond ENGINE_FAULTED (R243, R246), the legal one in its own phase check. -/
def present (c : Command) (s : State) : Fetched :=
  match decode c with
  | .command i => .run i s
  | .illegal _ => .settled (illegalCommand s)

/-- Take the host's next event. With none, the engine holds its state (R257, R258; log entry 21). A command presented
before the previous response is taken has no meaning (R71, R258; log entry 4); taking a response empties the channel
(R71; log entry 5); a reset acts in every phase (R270), and one that cuts a command leaves no trace of that command
(R271; log entry 7). -/
def fetch (s : State) : Fetched :=
  match s.inbox with
  | [] => .settled s
  | .takeResponse :: rest => .settled { s with response := .none, inbox := rest }
  | .reset :: rest => .settled (hardReset { s with inbox := rest })
  | .command c :: rest =>
    match s.response with
    | some _ => .refuse .responseNotTaken
    | none   => present c { s with inbox := rest }
  | .commandCutByReset _ :: rest =>
    match s.response with
    | some _ => .refuse .responseNotTaken
    | none   => .settled (hardReset { s with inbox := rest })

/-- `s` with a command placed as the host's next event and the response channel free, which the command needs (R71). -/
def State.offer (c : Command) (s : State) : State :=
  { s with response := .none, inbox := .command c :: s.inbox }

end Sys2Proof.Machine
end

