-- ==== Sys2Proof/Machine/Dispatch.lean ====
section
/-! DEFINITION. `exec`: one arm per constructor of `Instr`, each one direct call of that command's meaning. -/

namespace Sys2Proof.Machine

def exec (i : Instr) (s : State) : Host.Outcome State Fault Refusal :=
  match i with
  | .initSha224 => Sys2Proof.Machine.execInitSha224 s
  | .initSha256 => Sys2Proof.Machine.execInitSha256 s
  | .initSha384 => Sys2Proof.Machine.execInitSha384 s
  | .initSha512 => Sys2Proof.Machine.execInitSha512 s
  | .initSha512_224 => Sys2Proof.Machine.execInitSha512_224 s
  | .initSha512_256 => Sys2Proof.Machine.execInitSha512_256 s
  | .update d => Sys2Proof.Machine.execUpdate d s
  | .finalize => Sys2Proof.Machine.execFinalize s
  | .finalizeReset => Sys2Proof.Machine.execFinalizeReset s

end Sys2Proof.Machine
end

