-- ==== Sys2Proof/Machine/Step.lean ====
section
/-! DEFINITION. One step of the machine: take the host's next event and, where it is a legal command, run it whole.
One command is one step (20_memory.md R57, R60). -/

namespace Sys2Proof.Machine

/-- One step: the next host event, and the command it presents. -/
def step (s : State) : Host.Outcome State Fault Refusal :=
  match fetch s with
  | .settled t => .next t
  | .refuse r  => .refused r
  | .run i t   => exec i t

/-- `s` with the table word `w` as the host's next command, its payload empty, and the response channel free, so that
the very next step runs it. -/
def State.withFetchWord (s : State) (nbits w : Nat) : State := s.offer (tableCommand nbits w)

end Sys2Proof.Machine
end

