-- ==== Sys2Proof/Machine/Assembler.lean ====
section
/-! DEFINITION. The assembler syntax of command sequences and the pseudo-commands (30_encoding.md R81, R83, R84). The
syntax carries no behaviour (92_eei_decisions.md D24); a line is a list of characters. What R81 leaves open of the
spacing, the letter case of hex digits and the escapes is log entry 17. -/

namespace Sys2Proof.Machine

/-- The INIT command of a variant (R78, R81). -/
def initOf : Variant → Instr
  | .sha224     => .initSha224
  | .sha256     => .initSha256
  | .sha384     => .initSha384
  | .sha512     => .initSha512
  | .sha512_224 => .initSha512_224
  | .sha512_256 => .initSha512_256

/-- `HASH <variant>, <payload>` (R83). -/
def hashCommands (v : Variant) (d : List Byte) : List Instr := [initOf v, .update d, .finalize]

/-- `UPDATE* <p1>, <p2>, ...` (R84). -/
def updateStar (ps : List (List Byte)) : List Instr := ps.map .update

/-- What is left of a text after the given characters, if it begins with them. -/
def eat : List Char → List Char → Option (List Char)
  | [],      cs => some cs
  | _ :: _,  [] => none
  | k :: ks, c :: cs => if k = c then eat ks cs else none

/-- A text without the blanks it begins with. -/
def skipBlanks (cs : List Char) : List Char := cs.dropWhile fun c => c == ' ' || c == '\t'

/-- Only blanks and a comment are left on the line (R81: comments start with `;`). -/
def lineEnds (cs : List Char) : Bool :=
  match skipBlanks cs with
  | []     => true
  | c :: _ => c == ';'

/-- The value of a hex digit. -/
def hexDigit (c : Char) : Option Nat :=
  let n := c.toNat
  if 48 ≤ n ∧ n ≤ 57 then some (n - 48)
  else if 97 ≤ n ∧ n ≤ 102 then some (n - 87)
  else if 65 ≤ n ∧ n ≤ 70 then some (n - 55)
  else none

/-- The byte of two hex digits. -/
def hexByte (a b : Char) : Option Byte :=
  match hexDigit a, hexDigit b with
  | some x, some y => some (BitVec.ofNat 8 (16 * x + y))
  | _, _ => none

/-- The lower-case hex digit of a number below 16. -/
def hexChar (n : Nat) : Char := if n < 10 then Char.ofNat (48 + n) else Char.ofNat (87 + n)

/-- The hex digits of a byte sequence, two a byte. -/
def hexText : List Byte → List Char
  | []      => []
  | b :: bs => hexChar (b.toNat / 16) :: hexChar (b.toNat % 16) :: hexText bs

/-- The bytes of the pairs of hex digits a text begins with, first pair first, and the rest of the text. -/
def hexPairs : List Char → List Byte × List Char
  | a :: b :: rest =>
    match hexByte a b with
    | some x => (x :: (hexPairs rest).1, (hexPairs rest).2)
    | none   => ([], a :: b :: rest)
  | cs => ([], cs)

/-- The bytes of a quoted text, after its opening quote: ASCII characters and the escapes `\xHH`; and the rest of the
line after the closing quote. -/
def quotedBytes : List Char → Option (List Byte × List Char)
  | [] => none
  | '\\' :: 'x' :: a :: b :: rest =>
    match hexByte a b, quotedBytes rest with
    | some x, some (bs, r) => some (x :: bs, r)
    | _, _ => none
  | c :: rest =>
    if c.toNat = 34 then some ([], rest)
    else if c = '\\' ∨ 128 ≤ c.toNat then none
    else
      match quotedBytes rest with
      | some (bs, r) => some (BitVec.ofNat 8 c.toNat :: bs, r)
      | none => none

/-- The decimal number a text begins with, added to `acc`, and the rest of the text. -/
def decimal (acc : Nat) : List Char → Nat × List Char
  | [] => (acc, [])
  | c :: cs => if c.isDigit then decimal (acc * 10 + (c.toNat - 48)) cs else (acc, c :: cs)

/-- The operand `<n> x 0x<hh>`: n copies of a byte. -/
def fillOperand (cs : List Char) : Option (List Byte × List Char) :=
  match cs with
  | [] => none
  | c :: _ =>
    if c.isDigit then
      match eat ['x'] (skipBlanks (decimal 0 cs).2) with
      | some r =>
        match eat ['0', 'x'] (skipBlanks r) with
        | some (a :: b :: rest) => (hexByte a b).map fun x => (List.replicate (decimal 0 cs).1 x, rest)
        | _ => none
      | none => none
    else none

/-- The payload operand of an UPDATE line, in one of its three forms, and the rest of the line. -/
def payloadOperand (cs : List Char) : Option (List Byte × List Char) :=
  match cs with
  | [] => none
  | c :: rest =>
    if c.toNat = 34 then quotedBytes rest
    else
      match eat ['0', 'x'] cs with
      | some r => some (hexPairs r)
      | none   => fillOperand cs

/-- The spelling of a variant on an INIT line. -/
def variantName : Variant → List Char
  | .sha224     => ['S', 'H', 'A', '-', '2', '2', '4']
  | .sha256     => ['S', 'H', 'A', '-', '2', '5', '6']
  | .sha384     => ['S', 'H', 'A', '-', '3', '8', '4']
  | .sha512     => ['S', 'H', 'A', '-', '5', '1', '2']
  | .sha512_224 => ['S', 'H', 'A', '-', '5', '1', '2', '/', '2', '2', '4']
  | .sha512_256 => ['S', 'H', 'A', '-', '5', '1', '2', '/', '2', '5', '6']

/-- The six variants. -/
def allVariants : List Variant := [.sha224, .sha256, .sha384, .sha512, .sha512_224, .sha512_256]

/-- The variant that the rest of an INIT line names. -/
def variantOperand (cs : List Char) : Option Variant :=
  allVariants.find? fun v => ((eat (variantName v) cs).map lineEnds).getD false

/-- What follows a keyword, after the one blank or more that an operand needs before it. -/
def operandOf (keyword cs : List Char) : Option (List Char) :=
  match eat keyword cs with
  | some (c :: rest) => if c == ' ' || c == '\t' then some (skipBlanks rest) else none
  | _ => none

/-- The command of a line without operands, if the line is that keyword alone. -/
def bareCommand (keyword : List Char) (i : Instr) (cs : List Char) : Option Instr :=
  if ((eat keyword cs).map lineEnds).getD false then some i else none

/-- The command that a line spells (R81). -/
def asmCommand (line : List Char) : Option Instr :=
  let cs := skipBlanks line
  match operandOf ['I', 'N', 'I', 'T'] cs with
  | some r => (variantOperand r).map initOf
  | none =>
    match operandOf ['U', 'P', 'D', 'A', 'T', 'E'] cs with
    | some r =>
      match payloadOperand r with
      | some (bs, rest) => if lineEnds rest then some (.update bs) else none
      | none => none
    | none =>
      match bareCommand ['F', 'I', 'N', 'A', 'L', 'I', 'Z', 'E'] .finalize cs with
      | some i => some i
      | none =>
        bareCommand ['F', 'I', 'N', 'A', 'L', 'I', 'Z', 'E', '_', 'R', 'E', 'S', 'E', 'T'] .finalizeReset cs

/-- The commands of a text, line by line; a line of blanks or a comment holds none, and a line that spells no command
makes the text no program. -/
def assemble : List (List Char) → Option (List Instr)
  | [] => some []
  | line :: rest =>
    match assemble rest with
    | none => none
    | some is => if lineEnds line then some is else (asmCommand line).map fun i => i :: is

end Sys2Proof.Machine
end

