-- ==== Sys2Proof/Machine/Datapath.lean ====
section
/-! DEFINITION. The implementations the spec allows beside its own pseudocode: the register-level datapath of a core with
its 16-word schedule window (42_compress32.md R136, 43_compress64.md R166) and batched absorption (41_update.md R105).
`exec` does not use them; they are here to be proved equal to what it uses. -/

namespace Sys2Proof.Machine

/-- The internal registers of a core during one compression (10_state.md R35, R136): the working state a..h, the round
counter t and the schedule as a window of 16 words. They hold no value between commands (log entry 10). -/
structure CoreRegs (n : Nat) where
  x      : Working n
  t      : Nat
  window : List (BitVec n)
deriving DecidableEq, Repr

/-- The registers before round 0: a..h a copy of the state words, the window the block's 16 words. -/
def datapathLoad {n : Nat} (F : CoreFns n) (h : Vector (BitVec n) 8) (blk : List Byte) : CoreRegs n :=
  ⟨loadWorking h, 0, blockWords n F.wordBytes blk⟩

/-- W[t] as round t takes it: from the window while t < 16, then computed from the window, which holds
W[t-16..t-1] (R136). -/
def datapathWord {n : Nat} (F : CoreFns n) (r : CoreRegs n) : BitVec n :=
  if r.t < 16 then r.window.getD r.t 0 else nextWord F r.window

/-- One step of the datapath: one round; from t = 16 on the window shifts the new word in. -/
def datapathStep {n : Nat} (F : CoreFns n) (r : CoreRegs n) : CoreRegs n :=
  ⟨roundStep F r.x (F.k.getD r.t 0) (datapathWord F r), r.t + 1,
   if r.t < 16 then r.window else r.window.drop 1 ++ [datapathWord F r]⟩

/-- A number of datapath steps. -/
def datapathRun {n : Nat} (F : CoreFns n) : Nat → CoreRegs n → CoreRegs n
  | 0,     r => r
  | m + 1, r => datapathRun F m (datapathStep F r)

/-- A compression by the datapath: one step per round, then the feed-forward. -/
def datapathCompress {n : Nat} (F : CoreFns n) (h : Vector (BitVec n) 8) (blk : List Byte) :
    Vector (BitVec n) 8 :=
  feedForward h (datapathRun F F.k.length (datapathLoad F h blk)).x

/-- Absorb a payload, taking the full blocks after the buffered one straight from it (R105). -/
def absorbBatched (d : List Byte) (s : State) : State :=
  let b := (cfg s.variant).blockBytes
  if s.cursor.toNat + d.length < b then absorbAll d s
  else
    let first := absorbAll (d.take (b - s.cursor.toNat)) s
    let rest := d.drop (b - s.cursor.toNat)
    absorbAll (rest.drop (rest.length / b * b))
      { first with h := compressBlocks s.variant (rest.length / b) rest first.h }

end Sys2Proof.Machine
end

