-- ==== Sys2Proof/Safety.lean ====
section
/-! DEFINITION. The terms in which claims are made: the invariant that every step keeps, what it means that the engine
has absorbed a message, the SHA-2 digest as a function of the message alone, the blocks a command compresses, and a run
of commands with its observation. -/

namespace Sys2Proof.Machine

/-- The phase is FAULTED exactly when a cause is latched (R30, R32, R244). -/
abbrev CauseAgrees (s : State) : Prop := s.phase = .faulted ↔ s.faultCause ≠ .none

/-- The message registers hold values: in ACTIVE, in CONSUMED, and in FAULTED after a fault that only those phases can
raise (R30, R33, R241; 90_conflicts.md C7). Which values they hold in CONSUMED, and in FAULTED by USE_AFTER_FINALIZE, is the
model's choice (log entry 9). -/
abbrev Configured (s : State) : Prop :=
  s.phase = .active ∨ s.phase = .consumed ∨
    (s.phase = .faulted ∧ (s.faultCause = .useAfterFinalize ∨ s.faultCause = .lengthOverflow))

/-- What holds of the message registers between commands: the cursor is the count modulo the block size (R26, R27), the
count is within the limit (R24), and in a C32 variant the upper halves of the state words (R21) and of the buffer (R25)
are zero. R27 says so of the cursor in ACTIVE only (log entry 9 for the other phases). -/
abbrev MessageInv (s : State) : Prop :=
  s.cursor.toNat = s.totalLength.toNat % (cfg s.variant).blockBytes ∧
  s.totalLength.toNat ≤ lmax s.variant ∧
  ((cfg s.variant).core = .c32 →
    (∀ i : Fin 8, s.h[i].toNat < 2 ^ 32) ∧ (∀ i : Fin 128, 64 ≤ i.val → s.buf[i] = 0))

/-- The invariant of the engine between commands. -/
abbrev Inv (s : State) : Prop := CauseAgrees s ∧ (Configured s → MessageInv s)

/-- The full blocks of a message for variant v. -/
def fullBlocks (v : Variant) (m : List Byte) : Nat := m.length / (cfg v).blockBytes

/-- The state words after all full blocks of m (R22). -/
def hashedWords (v : Variant) (m : List Byte) : Vector Word64 8 :=
  compressBlocks v (fullBlocks v m) m (cfg v).iv

/-- The bytes of m after its last full block. -/
def tailBytes (v : Variant) (m : List Byte) : List Byte :=
  m.drop (fullBlocks v m * (cfg v).blockBytes)

/-- The engine is ACTIVE and has absorbed exactly the bytes m since the last INIT or FINALIZE_RESET (R22, R23, R26, R27). -/
abbrev Absorbed (m : List Byte) (s : State) : Prop :=
  s.phase = .active ∧ m.length ≤ lmax s.variant ∧ s.totalLength.toNat = m.length ∧
  s.cursor.toNat = m.length % (cfg s.variant).blockBytes ∧
  s.h = hashedWords s.variant m ∧
  bufRead 0 s.cursor.toNat s.buf = tailBytes s.variant m

/-- The number of zero bytes of R189's padded message for a message of n bytes. -/
def padZeros (v : Variant) (n : Nat) : Nat :=
  ((cfg v).blockBytes - (n + 1 + (cfg v).lenBytes) % (cfg v).blockBytes) % (cfg v).blockBytes

/-- The padded message of R189. -/
def paddedMessage (v : Variant) (m : List Byte) : List Byte :=
  m ++ [0x80] ++ List.replicate (padZeros v m.length) 0 ++ beBytes (cfg v).lenBytes (8 * m.length)

/-- The digest of m under variant v, as a function of the message: compress the padded message block by block from the
initial vector, and assemble (R22, R189, R215). -/
def sha2 (v : Variant) (m : List Byte) : List Byte := digestOf v (hashedWords v (paddedMessage v m))

/-- The blocks that absorbing a payload compresses, in order, each as the bytes read from the buffer (R104). -/
def absorbedBlocks : List Byte → State → List (List Byte)
  | [],      _ => []
  | d :: ds, s =>
    (if s.cursor.toNat + 1 = (cfg s.variant).blockBytes
      then [bufRead 0 (cfg s.variant).blockBytes (storeByte d s).buf] else []) ++
    absorbedBlocks ds (absorbByte d s)

/-- The blocks that Pad() compresses, in order (R181). -/
def paddedBlocks (s : State) : List (List Byte) :=
  (if padOverflows s
    then [bufRead 0 (cfg s.variant).blockBytes (padOverflowBlock (storeByte 0x80 s)).buf] else []) ++
  [bufRead 0 (cfg s.variant).blockBytes (pad s).buf]

/-- Running a list of legal commands one after the other, as the pseudo-commands of R83 and R84 expand. -/
def runInstrs : List Instr → State → Option State
  | [],      s => some s
  | i :: is, s =>
    match exec i s with
    | .next t    => runInstrs is t
    | .fault _   => none
    | .refused _ => none

/-- One command of a run: the host presents it on a free response channel, the engine takes one step, and the host takes
the response (R71). -/
def transact (c : Command) (s : State) : Option (Response × State) :=
  match step (s.offer c) with
  | .next t =>
    match t.response with
    | some r => some (r, { t with response := .none })
    | none   => none
  | .fault _   => none
  | .refused _ => none

/-- The observation of a sequence of commands: their responses, in order, and the state after the last (R280). A run is
such a sequence from `State.reset`. -/
def observe : List Command → State → Option (List Response × State)
  | [],      s => some ([], s)
  | c :: cs, s =>
    match transact c s with
    | some (r, t) =>
      match observe cs t with
      | some (rs, u) => some (r :: rs, u)
      | none => none
    | none => none

/-- A run has faulted if a response has a status other than OK (R280). -/
def runFaulted (rs : List Response) : Bool := rs.any fun r => r.status != .ok

end Sys2Proof.Machine
end

