-- ==== Sys2Proof/Certificates/Slice0/Obligations.lean ====
section
/-! DEFINITION. The statements for the provers, each from a numbered rule of spec/ or from the rules its docstring
names. -/

open Sys2Proof Sys2Proof.Machine

/-! ### Decoding and encoding (30_encoding.md) -/

/-- The nine command words of R78, written out, each decode to the command they stand for: the six INIT words and the two
finalize words with an empty payload, the UPDATE word with any payload. -/
def Obligations.CommandWordsDecode : Prop :=
  decode ⟨0x00000001, []⟩ = .command .initSha224 ∧
  decode ⟨0x00000011, []⟩ = .command .initSha256 ∧
  decode ⟨0x00000021, []⟩ = .command .initSha384 ∧
  decode ⟨0x00000031, []⟩ = .command .initSha512 ∧
  decode ⟨0x00000041, []⟩ = .command .initSha512_224 ∧
  decode ⟨0x00000051, []⟩ = .command .initSha512_256 ∧
  (∀ d, decode ⟨0x00000002, d⟩ = .command (.update d)) ∧
  decode ⟨0x00000003, []⟩ = .command .finalize ∧
  decode ⟨0x00000004, []⟩ = .command .finalizeReset

/-- Decoding and encoding agree in both directions, over every instruction with every payload and over every one of the
2^32 words with every payload: a command decodes to i exactly when it is the encoding of i (R72, R77). -/
def Obligations.DecodeIsInverseOfEncode : Prop :=
  ∀ (c : Command) (i : Instr), decode c = .command i ↔ encode i = c

/-- The illegal commands are exactly those of R80's five clauses, read from the word as a number (OP = w mod 16,
VAR = (w / 16) mod 8, RSV = w / 128), and ILLEGAL_COMMAND is the status exactly when one of them arrives in a phase other
than FAULTED; the command then faults with that cause (R242, R244). -/
def Obligations.IllegalCommandsAreTheFiveClauses : Prop :=
  ∀ (c : Command) (s : State) (rest : List HostEvent),
    ((∃ why, decode c = .illegal why) ↔
      (c.word.toNat % 16 = 0 ∨ 5 ≤ c.word.toNat % 16) ∨
      c.word.toNat / 128 ≠ 0 ∨
      (c.word.toNat % 16 = 1 ∧ 6 ≤ c.word.toNat / 16 % 8) ∨
      (c.word.toNat % 16 ≠ 1 ∧ c.word.toNat / 16 % 8 ≠ 0) ∨
      (c.payload ≠ [] ∧ c.word.toNat % 16 ≠ 2)) ∧
    (s.inbox = .command c :: rest → s.response = none →
      ((∃ why, decode c = .illegal why) → s.phase ≠ .faulted →
        step s = .next { s with
          faultCause := .illegalCommand, phase := .faulted,
          response := some ⟨.illegalCommand, []⟩, inbox := rest }) ∧
      (∀ t, step s = .next t → t.response = some ⟨.illegalCommand, []⟩ →
        (∃ why, decode c = .illegal why) ∧ s.phase ≠ .faulted))

/-- The assembler syntax (R81) of every command: the six INIT lines, an UPDATE line with the payload in hex for every
payload, and the two finalize lines spell their commands. Which spacing and letter case a line may have is the model's
choice (log entry 17). -/
def Obligations.AssemblerSpellsEveryCommand : Prop :=
  (∀ v : Variant, asmCommand (['I', 'N', 'I', 'T', ' '] ++ variantName v) = some (initOf v)) ∧
  (∀ d : List Byte,
    asmCommand (['U', 'P', 'D', 'A', 'T', 'E', ' ', '0', 'x'] ++ hexText d) = some (.update d)) ∧
  asmCommand ['F', 'I', 'N', 'A', 'L', 'I', 'Z', 'E'] = some .finalize ∧
  asmCommand ['F', 'I', 'N', 'A', 'L', 'I', 'Z', 'E', '_', 'R', 'E', 'S', 'E', 'T'] =
    some .finalizeReset

/-! ### The step (20_memory.md R57, R60; 30_encoding.md R71) -/

/-- When the host presents a command on a free response channel and it decodes to i, the step is exec of i on the state
with that event taken from the host's list. -/
def Obligations.StepRunsTheDecodedCommand : Prop :=
  ∀ (s : State) (c : Command) (rest : List HostEvent) (i : Instr),
    s.inbox = .command c :: rest → s.response = none → decode c = .command i →
      step s = exec i { s with inbox := rest }

/-- The handshake (R71, R258; log entries 4, 5 and 21): with no event the engine holds its state; taking a response empties
the channel and changes nothing else; a command presented before the previous response is taken has no meaning. -/
def Obligations.HandshakeSteps : Prop :=
  (∀ s : State, s.inbox = [] → step s = .next s) ∧
  (∀ (s : State) (rest : List HostEvent), s.inbox = .takeResponse :: rest →
    step s = .next { s with response := .none, inbox := rest }) ∧
  (∀ (s : State) (c : Command) (rest : List HostEvent) (r : Response),
    s.inbox = .command c :: rest → s.response = some r → step s = .refused .responseNotTaken)

/-- No step ends in a fault, and a step is refused only where the host breaks the handshake: its next event is a command, let
run or cut by a reset, and the previous response is untaken (R259, R71, R258; log entry 4). -/
def Obligations.StepStopsOnlyOnABrokenHandshake : Prop :=
  ∀ s : State, (∀ f, step s ≠ .fault f) ∧
    ∀ r, step s = .refused r → r = .responseNotTaken ∧ s.response ≠ none ∧
      ∃ c rest, s.inbox = .command c :: rest ∨ s.inbox = .commandCutByReset c :: rest

/-- Every command, legal or not, in every phase, gets exactly one response, and so does every command of a run (R259,
R279, R280). -/
def Obligations.EveryCommandIsAnswered : Prop :=
  ∀ (cs : List Command) (s : State),
    ∃ rs t, observe cs s = some (rs, t) ∧ rs.length = cs.length ∧ t.inbox = s.inbox

/-! ### Reset (70_reset_and_hazards.md) -/

/-- Reset leaves phase UNCONFIGURED and fault_cause NONE (R270), and a reset event does so from every state (R247, R271).
The event is taken from the model's own list of host events (log entry 3). -/
def Obligations.ResetLeavesUnconfigured : Prop :=
  (State.reset.phase = .unconfigured ∧ State.reset.faultCause = .none) ∧
  ∀ (s : State) (rest : List HostEvent), s.inbox = .reset :: rest →
    ∃ t, step s = .next t ∧ t.phase = .unconfigured ∧ t.faultCause = .none ∧ t.inbox = rest

/-- A reset that arrives while a command is in progress abandons it: no response comes, and the state is the one a reset
without the command leaves (R271). That the channels stay as they are, and that the cut command is one event, is the
model's choice (log entries 6 and 7). -/
def Obligations.ResetAbandonsTheCommand : Prop :=
  ∀ (s : State) (c : Command) (rest : List HostEvent), s.response = none →
    step { s with inbox := .commandCutByReset c :: rest } =
      step { s with inbox := .reset :: rest } ∧
    ∀ t, step { s with inbox := .commandCutByReset c :: rest } = .next t → t.response = none

/-! ### Faults (60_exceptions.md) -/

/-- R241's table, cell by cell. `initOf v` is one of the six INIT commands. -/
def Obligations.CommandAcceptanceByPhase : Prop :=
  ∀ (s : State) (i : Instr),
    (s.phase = .faulted →
      exec i s = .next { s with response := some ⟨.engineFaulted, []⟩ }) ∧
    (s.phase = .unconfigured → (∀ v, i ≠ initOf v) →
      exec i s = .next { s with
        phase := .faulted, faultCause := .notConfigured, response := some ⟨.notConfigured, []⟩ }) ∧
    (s.phase = .consumed → (∀ v, i ≠ initOf v) →
      exec i s = .next { s with
        phase := .faulted, faultCause := .useAfterFinalize,
        response := some ⟨.useAfterFinalize, []⟩ }) ∧
    (s.phase ≠ .faulted → (∃ v, i = initOf v) →
      ∃ t, exec i s = .next t ∧ t.phase = .active ∧ t.response = some ⟨.ok, []⟩) ∧
    (s.phase = .active → ∀ d, i = .update d →
      ∃ t, exec i s = .next t ∧
        (t.response = some ⟨.ok, []⟩ ∨ t.response = some ⟨.lengthOverflow, []⟩)) ∧
    (s.phase = .active → i = .finalize →
      ∃ t data, exec i s = .next t ∧ t.phase = .consumed ∧ t.response = some ⟨.ok, data⟩) ∧
    (s.phase = .active → i = .finalizeReset →
      ∃ t data, exec i s = .next t ∧ t.phase = .active ∧ t.response = some ⟨.ok, data⟩)

/-- R243: of the fault conditions that a command meets, the first of the list is the one it reports, and with none of them
it responds OK. -/
def Obligations.FirstFaultConditionIsReported : Prop :=
  ∀ (s : State) (c : Command) (rest : List HostEvent),
    s.inbox = .command c :: rest → s.response = none →
    ∃ t r, step s = .next t ∧ t.response = some r ∧
      ((s.phase = .faulted ∧ r.status = .engineFaulted) ∨
       (s.phase ≠ .faulted ∧ (∃ why, decode c = .illegal why) ∧ r.status = .illegalCommand) ∨
       (s.phase ≠ .faulted ∧ ∃ i, decode c = .command i ∧
         ((s.phase = .unconfigured ∧ (∀ v, i ≠ initOf v) ∧ r.status = .notConfigured) ∨
          (s.phase = .consumed ∧ (∀ v, i ≠ initOf v) ∧ r.status = .useAfterFinalize) ∨
          (s.phase = .active ∧ (∃ d, i = .update d ∧
            lmax s.variant < s.totalLength.toNat + d.length) ∧ r.status = .lengthOverflow) ∨
          (((∃ v, i = initOf v) ∨ (s.phase = .active ∧ ∀ d, i = .update d →
            s.totalLength.toNat + d.length ≤ lmax s.variant)) ∧ r.status = .ok))))

/-- Fault entry is precise (R244) and the first cause is kept (R246): a command whose status is not OK leaves H, buf,
cursor, total_length and variant as they were and carries no data; it latches its cause and moves to FAULTED, unless the
engine was FAULTED already, in which case phase and cause stay and the status is ENGINE_FAULTED. -/
def Obligations.FaultsArePreciseAndSticky : Prop :=
  ∀ (s t : State) (c : Command) (rest : List HostEvent) (r : Response),
    s.inbox = .command c :: rest → s.response = none →
    step s = .next t → t.response = some r → r.status ≠ .ok →
      r.data = [] ∧
      t.h = s.h ∧ t.buf = s.buf ∧ t.cursor = s.cursor ∧ t.totalLength = s.totalLength ∧
      t.variant = s.variant ∧ t.inbox = rest ∧ t.phase = .faulted ∧
      (s.phase = .faulted → t.faultCause = s.faultCause ∧ r.status = .engineFaulted) ∧
      (s.phase ≠ .faulted → t.faultCause.status = r.status)

/-- Only reset leaves FAULTED (R247): a step from FAULTED whose event is not a reset stays there with the same cause, and a
reset leaves it. -/
def Obligations.OnlyResetLeavesFaulted : Prop :=
  ∀ s t : State, s.phase = .faulted → step s = .next t →
    (t.phase = .faulted ∧ t.faultCause = s.faultCause) ∨
    (((∃ rest, s.inbox = .reset :: rest) ∨ ∃ c rest, s.inbox = .commandCutByReset c :: rest) ∧
      t.phase = .unconfigured ∧ t.faultCause = .none)

/-- fault_cause is written only by fault entry, and only while phase ≠ FAULTED (R32); besides, a reset event, alone or during a
command, clears it (R270, R271). -/
def Obligations.FaultCauseIsWrittenByTheFirstFaultOnly : Prop :=
  ∀ s t : State, step s = .next t → t.faultCause ≠ s.faultCause →
    (s.phase ≠ .faulted ∧ t.phase = .faulted ∧
      ∃ r, t.response = some r ∧ r.status = t.faultCause.status) ∨
    (((∃ rest, s.inbox = .reset :: rest) ∨ ∃ c rest, s.inbox = .commandCutByReset c :: rest) ∧
      t.phase = .unconfigured ∧ t.faultCause = .none)

/-- How each phase is entered (R30): ACTIVE by an INIT, CONSUMED by a FINALIZE, FAULTED by a fault, and UNCONFIGURED by no
command. -/
def Obligations.PhaseIsEnteredAsTheTableSays : Prop :=
  ∀ (i : Instr) (s t : State), exec i s = .next t → t.phase ≠ s.phase →
    (t.phase = .active ∧ ∃ v, i = initOf v) ∨
    (t.phase = .consumed ∧ s.phase = .active ∧ i = .finalize) ∨
    (t.phase = .faulted ∧ t.faultCause ≠ .none)

/-- A command that is answered with data is a finalize command with status OK, and the data is a digest of OUT(variant)
bytes; every other response carries no data (R74). -/
def Obligations.OnlyFinalizeAnswersData : Prop :=
  ∀ (i : Instr) (s t : State) (r : Response), exec i s = .next t → t.response = some r →
    (r.data = [] ∧ (r.status = .ok → i ≠ .finalize ∧ i ≠ .finalizeReset)) ∨
    (r.status = .ok ∧ (i = .finalize ∨ i = .finalizeReset) ∧
      r.data.length = (cfg s.variant).outBytes)

/-- From FAULTED every command of a run, legal or not, is answered ENGINE_FAULTED, and nothing of the engine changes, the
latched cause included (R246). The host has taken the last response, so the response channel is empty at the end. -/
def Obligations.FaultedAnswersEveryCommandAlike : Prop :=
  ∀ (cs : List Command) (s : State), s.phase = .faulted →
    observe cs s =
      some (List.replicate cs.length ⟨.engineFaulted, []⟩, if cs = [] then s else { s with response := none })

/-- From UNCONFIGURED no command is answered OK before an INIT (R272). -/
def Obligations.NothingSucceedsBeforeInit : Prop :=
  ∀ (cs : List Command) (s t : State) (rs : List Response), s.phase = .unconfigured →
    (∀ c ∈ cs, ∀ v, decode c ≠ .command (initOf v)) → observe cs s = some (rs, t) →
      ∀ r ∈ rs, r.status ≠ .ok

/-- A run has faulted, that is a response has a status other than OK, exactly when the engine is FAULTED at its end (R280,
R244, R247), for every run of commands from a state that is not FAULTED. -/
def Obligations.RunFaultsExactlyWhenItEndsFaulted : Prop :=
  ∀ (cs : List Command) (s t : State) (rs : List Response), s.phase ≠ .faulted →
    observe cs s = some (rs, t) → (runFaulted rs = true ↔ t.phase = .faulted)

/-! ### INIT (45_variant.md) -/

/-- Each of the six INIT commands (INIT.SHA224, INIT.SHA256, INIT.SHA384, INIT.SHA512, INIT.SHA512_224, INIT.SHA512_256),
accepted in every phase but FAULTED, selects its variant and starts an empty message: the whole next state (R212, R213).
What is not named in it stays: fault_cause and the host's coming events. -/
def Obligations.InitStartsAnEmptyMessage : Prop :=
  ∀ s : State, s.phase ≠ .faulted →
    let started (v : Variant) : State :=
      { s with variant := v, h := (cfg v).iv, totalLength := 0, cursor := 0,
               buf := Vector.replicate 128 0, phase := .active, response := some ⟨.ok, []⟩ }
    exec .initSha224 s = .next (started .sha224) ∧
    exec .initSha256 s = .next (started .sha256) ∧
    exec .initSha384 s = .next (started .sha384) ∧
    exec .initSha512 s = .next (started .sha512) ∧
    exec .initSha512_224 s = .next (started .sha512_224) ∧
    exec .initSha512_256 s = .next (started .sha512_256)

/-- INIT reads none of H, buf, cursor and total_length (R214 (c)): two states that agree on everything else go to the same
next state. -/
def Obligations.InitReadsNoMessageRegister : Prop :=
  ∀ (v : Variant) (s : State) (h : Vector Word64 8) (buf : Vector Byte 128) (cursor : BitVec 7)
    (n : BitVec 128) (w : Variant), s.phase ≠ .faulted →
    ∃ t, exec (initOf v) s = .next t ∧
      exec (initOf v) { s with h := h, buf := buf, cursor := cursor, totalLength := n, variant := w } =
        .next t

/-- `variant` is written only by INIT (R31): every other command leaves it, and an accepted INIT writes its own. -/
def Obligations.OnlyInitWritesVariant : Prop :=
  ∀ (i : Instr) (s t : State), exec i s = .next t →
    (t.variant = s.variant ∧ (s.phase = .faulted ∨ ∀ v, i ≠ initOf v)) ∨
    (s.phase ≠ .faulted ∧ i = initOf t.variant)

/-! ### UPDATE (41_update.md) -/

/-- LMAX(v) is the largest byte count whose bit count fits the length field (R10). -/
def Obligations.LmaxIsTheLargestFittingLength : Prop :=
  (∀ (v : Variant) (n : Nat), 8 * n < 2 ^ (8 * (cfg v).lenBytes) ↔ n ≤ lmax v) ∧
  (∀ v : Variant, (cfg v).core = .c32 → lmax v = 2 ^ 61 - 1) ∧
  (∀ v : Variant, (cfg v).core = .c64 → lmax v = 2 ^ 125 - 1)

/-- AbsorbByte (R104): the byte goes to the buffer at the cursor; a cursor that reaches B compresses the whole buffer and
becomes 0, any other advances by one; nothing else changes, and the cursor is below B again. -/
def Obligations.AbsorbByteFillsTheBlock : Prop :=
  ∀ (d : Byte) (s : State), s.cursor.toNat < (cfg s.variant).blockBytes →
    let t := absorbByte d s
    let stored := s.buf.setIfInBounds s.cursor.toNat d
    (s.cursor.toNat + 1 = (cfg s.variant).blockBytes →
      t = { s with
        buf := stored, cursor := 0,
        h := compressWith s.variant s.h (bufRead 0 (cfg s.variant).blockBytes stored) }) ∧
    (s.cursor.toNat + 1 ≠ (cfg s.variant).blockBytes →
      t = { s with buf := stored, cursor := t.cursor } ∧ t.cursor.toNat = s.cursor.toNat + 1) ∧
    t.cursor.toNat < (cfg s.variant).blockBytes

/-- The length check of UPDATE (R101), on the exact sum: past LMAX the command faults with LENGTH_OVERFLOW before any byte
and changes no state but phase and fault_cause; up to LMAX it is performed. -/
def Obligations.UpdateLengthCheck : Prop :=
  ∀ (d : List Byte) (s : State), s.phase = .active →
    (lmax s.variant < s.totalLength.toNat + d.length →
      exec (.update d) s = .next { s with
        phase := .faulted, faultCause := .lengthOverflow,
        response := some ⟨.lengthOverflow, []⟩ }) ∧
    (s.totalLength.toNat + d.length ≤ lmax s.variant →
      ∃ t, exec (.update d) s = .next t ∧ t.response = some ⟨.ok, []⟩)

/-- UPDATE in ACTIVE within the limit (R102, R103): the byte steps of the payload in order, the counter increased by n with
no wrap, phase ACTIVE, an OK response with no data, and every other register as it was. -/
def Obligations.UpdateAbsorbsItsPayload : Prop :=
  ∀ (d : List Byte) (s : State), s.phase = .active →
    s.totalLength.toNat + d.length ≤ lmax s.variant →
    ∃ t, exec (.update d) s = .next t ∧
      t.totalLength.toNat = s.totalLength.toNat + d.length ∧
      t.h = (d.foldl (fun u x => absorbByte x u) s).h ∧
      t.buf = (d.foldl (fun u x => absorbByte x u) s).buf ∧
      t.cursor = (d.foldl (fun u x => absorbByte x u) s).cursor ∧
      t.response = some ⟨.ok, []⟩ ∧ t.phase = .active ∧ t.variant = s.variant ∧
      t.faultCause = s.faultCause ∧ t.inbox = s.inbox

/-- UPDATE with an empty payload leaves every register as it was and responds OK (R107; the count is within the limit by
R24). -/
def Obligations.EmptyUpdateChangesNothing : Prop :=
  ∀ s : State, s.phase = .active → s.totalLength.toNat ≤ lmax s.variant →
    exec (.update []) s = .next { s with response := some ⟨.ok, []⟩ }

/-- The work of an UPDATE (R106): from cursor c0 it compresses exactly ⌊(c0 + n) / B⌋ blocks, which are the full blocks of
the buffered bytes followed by the payload; H has taken each of them in order; the cursor is (c0 + n) mod B and the buffer
holds the bytes after the last full block. Below a full block H is unchanged. -/
def Obligations.UpdateCompressesEveryFullBlock : Prop :=
  ∀ (d : List Byte) (s : State), s.phase = .active →
    s.cursor.toNat < (cfg s.variant).blockBytes →
    s.totalLength.toNat + d.length ≤ lmax s.variant →
    let b := (cfg s.variant).blockBytes
    let all := bufRead 0 s.cursor.toNat s.buf ++ d
    ∃ t, exec (.update d) s = .next t ∧
      (absorbedBlocks d s).length = (s.cursor.toNat + d.length) / b ∧
      (absorbedBlocks d s).flatten = all.take ((s.cursor.toNat + d.length) / b * b) ∧
      t.h = (absorbedBlocks d s).foldl (compressWith s.variant) s.h ∧
      t.cursor.toNat = (s.cursor.toNat + d.length) % b ∧
      bufRead 0 t.cursor.toNat t.buf = all.drop ((s.cursor.toNat + d.length) / b * b) ∧
      (s.cursor.toNat + d.length < b → t.h = s.h)

/-- What UPDATE leaves alone: variant and the host's events always, fault_cause when it does not fault, and every byte of
the buffer but those at the positions (c0 + j) mod B that its payload bytes land on; in a C32 variant so every byte from
index 64 on (R102, R25, R108 (d)). -/
def Obligations.UpdateFrame : Prop :=
  ∀ (d : List Byte) (s t : State), exec (.update d) s = .next t →
    t.variant = s.variant ∧ t.inbox = s.inbox ∧
    (t.phase = .active → t.faultCause = s.faultCause ∧ s.phase = .active) ∧
    (s.cursor.toNat < (cfg s.variant).blockBytes →
      ∀ i : Fin 128,
        (∀ j, j < d.length → (s.cursor.toNat + j) % (cfg s.variant).blockBytes ≠ i.val) →
        t.buf[i] = s.buf[i])

/-- Chunking invariance (R109), with R84's pseudo-command: UPDATE commands one after the other, none of which faults, leave
the very state that one UPDATE of the concatenated payloads leaves. -/
def Obligations.ChunkingDoesNotMatter : Prop :=
  ∀ (ps : List (List Byte)) (s t : State), ps ≠ [] →
    runInstrs (updateStar ps) s = some t → t.phase = .active →
      exec (.update ps.flatten) s = .next t

/-- Batched absorption (R105): taking full blocks straight from the payload gives the same H, cursor, total_length and
buffered bytes as the byte steps. -/
def Obligations.BatchedAbsorptionIsEquivalent : Prop :=
  ∀ (d : List Byte) (s : State), s.cursor.toNat < (cfg s.variant).blockBytes →
    (absorbBatched d s).h = (absorbAll d s).h ∧
    (absorbBatched d s).cursor = (absorbAll d s).cursor ∧
    (absorbBatched d s).totalLength = (absorbAll d s).totalLength ∧
    bufRead 0 (absorbAll d s).cursor.toNat (absorbBatched d s).buf =
      bufRead 0 (absorbAll d s).cursor.toNat (absorbAll d s).buf

/-! ### The message that the engine has absorbed (10_state.md R22, R23, R26, R27) -/

/-- After an accepted INIT of any of the six variants the engine has absorbed the empty message. -/
def Obligations.InitAbsorbsTheEmptyMessage : Prop :=
  ∀ (v : Variant) (s : State), s.phase ≠ .faulted →
    ∃ t, exec (initOf v) s = .next t ∧ Absorbed [] t ∧ t.variant = v

/-- An UPDATE within the limit appends its payload to the message that H, total_length, cursor and buf stand for (R22, R23,
R26, R27): H reflects all full blocks of the message, the counter its length, the buffer its rest. -/
def Obligations.UpdateAppendsToTheMessage : Prop :=
  ∀ (m d : List Byte) (s : State), Absorbed m s → (m ++ d).length ≤ lmax s.variant →
    ∃ t, exec (.update d) s = .next t ∧ Absorbed (m ++ d) t ∧ t.variant = s.variant ∧
      t.response = some ⟨.ok, []⟩

/-! ### Padding and finalization (44_finalize.md) -/

/-- The blocks that Pad() compresses (R181 to R188): one where the length field fits after the terminator, two where it does
not, byte by byte, and H takes them in order. -/
def Obligations.PadBuildsOneOrTwoBlocks : Prop :=
  ∀ s : State, s.cursor.toNat < (cfg s.variant).blockBytes →
    let b := (cfg s.variant).blockBytes
    let l := (cfg s.variant).lenBytes
    let begun := bufRead 0 s.cursor.toNat s.buf ++ [0x80]
    let field := beBytes l (8 * s.totalLength.toNat)
    (s.cursor.toNat + 1 ≤ b - l →
      paddedBlocks s = [begun ++ List.replicate (b - l - (s.cursor.toNat + 1)) 0 ++ field]) ∧
    (b - l < s.cursor.toNat + 1 →
      paddedBlocks s =
        [begun ++ List.replicate (b - (s.cursor.toNat + 1)) 0, List.replicate (b - l) 0 ++ field]) ∧
    (pad s).h = (paddedBlocks s).foldl (compressWith s.variant) s.h

/-- The number of zero bytes in the padded message is the least that completes a block (R189). -/
def Obligations.PadZerosIsLeast : Prop :=
  ∀ (v : Variant) (n : Nat),
    (n + 1 + padZeros v n + (cfg v).lenBytes) % (cfg v).blockBytes = 0 ∧
    ∀ k, k < padZeros v n → (n + 1 + k + (cfg v).lenBytes) % (cfg v).blockBytes ≠ 0

/-- The bytes compressed over a whole run, by an UPDATE of m from the empty message and by Pad() after it, in order, are the
padded message (R189). With chunking invariance this covers every split of m. -/
def Obligations.CompressedBytesAreThePaddedMessage : Prop :=
  ∀ (m : List Byte) (s t : State), Absorbed [] s → exec (.update m) s = .next t →
    t.phase = .active →
      (absorbedBlocks m s ++ paddedBlocks t).flatten = paddedMessage s.variant m

/-- FINALIZE in ACTIVE (R195, R190, R191): the whole next state. Pad() gives H and buf; the digest is read after it; phase
becomes CONSUMED; everything else stays. That the message registers stay as written is the choice R193 allows (log
entry 9). -/
def Obligations.FinalizePadsAndAnswers : Prop :=
  ∀ s : State, s.phase = .active →
    exec .finalize s = .next { s with
      h := (pad s).h, buf := (pad s).buf, phase := .consumed,
      response := some ⟨.ok, digestOf s.variant (pad s).h⟩ }

/-- FINALIZE_RESET in ACTIVE (R196): the digest is read before the restore, the message registers go back to those of an
empty message, phase and variant stay: the whole next state. -/
def Obligations.FinalizeResetAnswersAndRestores : Prop :=
  ∀ s : State, s.phase = .active →
    exec .finalizeReset s = .next { s with
      h := (cfg s.variant).iv, totalLength := 0, cursor := 0, buf := Vector.replicate 128 0,
      response := some ⟨.ok, digestOf s.variant (pad s).h⟩ }

/-- What the two finalize commands leave alone whatever they answer: variant and the host's events; with an OK status also
fault_cause; and FINALIZE leaves cursor and total_length, every byte of the buffer from B on, and, where one block is
enough, every byte before the cursor (R193; log entry 9). -/
def Obligations.FinalizeFrame : Prop :=
  (∀ s t : State, exec .finalize s = .next t →
    t.variant = s.variant ∧ t.inbox = s.inbox ∧ t.cursor = s.cursor ∧
    t.totalLength = s.totalLength ∧ (t.phase = .consumed → s.phase = .active ∧ t.faultCause = s.faultCause) ∧
    (s.cursor.toNat < (cfg s.variant).blockBytes → ∀ i : Fin 128,
      ((cfg s.variant).blockBytes ≤ i.val ∨
        (s.cursor.toNat + 1 ≤ (cfg s.variant).blockBytes - (cfg s.variant).lenBytes ∧
          i.val < s.cursor.toNat)) → t.buf[i] = s.buf[i])) ∧
  (∀ s t : State, exec .finalizeReset s = .next t →
    t.variant = s.variant ∧ t.inbox = s.inbox ∧
    (t.phase = .active → s.phase = .active ∧ t.faultCause = s.faultCause))

/-- The headline of FINALIZE: on an engine that has absorbed m, it answers the SHA-2 digest of m under the engine's variant
(R190, R195, R22, R189, R215). -/
def Obligations.FinalizeAnswersTheDigest : Prop :=
  ∀ (m : List Byte) (s : State), Absorbed m s →
    ∃ t, exec .finalize s = .next t ∧ t.phase = .consumed ∧
      t.response = some ⟨.ok, sha2 s.variant m⟩

/-- The headline of FINALIZE_RESET: it answers the same digest, and the engine has then absorbed the empty message under the
same variant (R196, R197). -/
def Obligations.FinalizeResetAnswersTheDigest : Prop :=
  ∀ (m : List Byte) (s : State), Absorbed m s →
    ∃ t, exec .finalizeReset s = .next t ∧ t.response = some ⟨.ok, sha2 s.variant m⟩ ∧
      Absorbed [] t ∧ t.variant = s.variant

/-- Reset equivalence (R197): after FINALIZE_RESET every state element has the value that INIT of the engine's variant would
give it; only the responses differ. -/
def Obligations.FinalizeResetEqualsInit : Prop :=
  ∀ s : State, s.phase = .active →
    ∃ t u, exec .finalizeReset s = .next t ∧ exec (initOf s.variant) s = .next u ∧
      { t with response := none } = { u with response := none }

/-- The pseudo-command HASH (R83), through the command words, decode and step: from every phase but FAULTED, INIT, UPDATE
and FINALIZE answer OK, OK and the SHA-2 digest of the payload, and leave phase = CONSUMED. -/
def Obligations.HashAnswersTheDigest : Prop :=
  ∀ (v : Variant) (d : List Byte) (s : State), s.phase ≠ .faulted → d.length ≤ lmax v →
    ∃ t, observe ((hashCommands v d).map encode) s =
        some ([⟨.ok, []⟩, ⟨.ok, []⟩, ⟨.ok, sha2 v d⟩], t) ∧ t.phase = .consumed

/-- The digest of a message does not depend on how it is split (R37, R84, R109), at the level of whole runs: from every
phase but FAULTED, an INIT, any number of UPDATEs and a FINALIZE are all answered OK, and the last answer is the SHA-2
digest of the concatenated payloads. -/
def Obligations.RunAnswersTheDigestOfTheWholeMessage : Prop :=
  ∀ (v : Variant) (ps : List (List Byte)) (s : State), s.phase ≠ .faulted →
    ps.flatten.length ≤ lmax v →
    ∃ t, observe ((initOf v :: (updateStar ps ++ [.finalize])).map encode) s =
      some (List.replicate (ps.length + 1) ⟨.ok, []⟩ ++ [⟨.ok, sha2 v ps.flatten⟩], t)

/-- A finalize command reads no stale byte of the buffer (R27) and, in a C32 variant, no upper half of a state word (R21):
changing them changes no response. -/
def Obligations.FinalizeReadsNoStaleBits : Prop :=
  ∀ (s : State) (buf : Vector Byte 128) (h : Vector Word64 8),
    s.phase = .active → s.cursor.toNat < (cfg s.variant).blockBytes →
    bufRead 0 s.cursor.toNat buf = bufRead 0 s.cursor.toNat s.buf →
    (h = s.h ∨ ((cfg s.variant).core = .c32 ∧
      ∀ i : Fin 8, h[i].setWidth 32 = s.h[i].setWidth 32)) →
    ∃ t u t' u', exec .finalize s = .next t ∧ exec .finalize { s with buf := buf, h := h } = .next u ∧
      t.response = u.response ∧
      exec .finalizeReset s = .next t' ∧
      exec .finalizeReset { s with buf := buf, h := h } = .next u' ∧ t'.response = u'.response

/-! ### Digest assembly and byte order (45_variant.md, 00_scope.md R13) -/

/-- The digest of each variant, word by word (R216): "the first 4 bytes" of H[3] in SHA-512/224 are those of H[3][63:32];
and it is OUT(variant) bytes long. -/
def Obligations.DigestWordsByVariant : Prop :=
  ∀ h : Vector Word64 8,
    (∀ v, (digestOf v h).length = (cfg v).outBytes) ∧
    (let w (i : Fin 8) : List Byte := wordBytes (h[i].setWidth 32)
     digestOf .sha224 h = w 0 ++ w 1 ++ w 2 ++ w 3 ++ w 4 ++ w 5 ++ w 6 ∧
     digestOf .sha256 h = w 0 ++ w 1 ++ w 2 ++ w 3 ++ w 4 ++ w 5 ++ w 6 ++ w 7) ∧
    (let w (i : Fin 8) : List Byte := wordBytes h[i]
     digestOf .sha384 h = w 0 ++ w 1 ++ w 2 ++ w 3 ++ w 4 ++ w 5 ∧
     digestOf .sha512 h = w 0 ++ w 1 ++ w 2 ++ w 3 ++ w 4 ++ w 5 ++ w 6 ++ w 7 ∧
     digestOf .sha512_224 h = w 0 ++ w 1 ++ w 2 ++ wordBytes (h[3].extractLsb' 32 32) ∧
     digestOf .sha512_256 h = w 0 ++ w 1 ++ w 2 ++ w 3)

/-- BE and bytesBE are inverse to each other on words of k bytes (R13), the most significant byte first. -/
def Obligations.BigEndianRoundTrip : Prop :=
  (∀ (k : Nat) (x : BitVec (8 * k)), beWord (8 * k) (wordBytes x) = x) ∧
  (∀ (k : Nat) (bs : List Byte), bs.length = k → wordBytes (beWord (8 * k) bs) = bs) ∧
  (∀ (k : Nat) (b : Byte) (bs : List Byte), bs.length = k →
    (beWord (8 * (k + 1)) (b :: bs)).toNat = b.toNat * 2 ^ (8 * k) + (beWord (8 * k) bs).toNat)

/-- The variant record (R7): core, B, L, Wbits, R and OUT of each variant; and the cores have that many rounds and that word
width, 16 words to a block. -/
def Obligations.VariantRecordAndCoresAgree : Prop :=
  (∀ v : Variant,
    ((cfg v).core, (cfg v).blockBytes, (cfg v).lenBytes, (cfg v).wordBits, (cfg v).rounds, (cfg v).outBytes) =
      match v with
      | .sha224     => (CoreSel.c32, 64, 8, 32, 64, 28)
      | .sha256     => (CoreSel.c32, 64, 8, 32, 64, 32)
      | .sha384     => (CoreSel.c64, 128, 16, 64, 80, 48)
      | .sha512     => (CoreSel.c64, 128, 16, 64, 80, 64)
      | .sha512_224 => (CoreSel.c64, 128, 16, 64, 80, 28)
      | .sha512_256 => (CoreSel.c64, 128, 16, 64, 80, 32)) ∧
  (∀ v : Variant, (cfg v).core = .c32 → core32.k.length = (cfg v).rounds ∧
    8 * core32.wordBytes = (cfg v).wordBits ∧ 16 * core32.wordBytes = (cfg v).blockBytes) ∧
  (∀ v : Variant, (cfg v).core = .c64 → core64.k.length = (cfg v).rounds ∧
    8 * core64.wordBytes = (cfg v).wordBits ∧ 16 * core64.wordBytes = (cfg v).blockBytes)

/-! ### The compression cores (42_compress32.md, 43_compress64.md) -/

/-- rotr_N(x, r), for 0 < r < N, moves bit (i + r) mod N to place i (R12). -/
def Obligations.RotrRotatesBits : Prop :=
  ∀ (n : Nat) (x : BitVec n) (r i : Nat), 0 < r → r < n → i < n →
    (rotr x r).getLsbD i = x.getLsbD ((i + r) % n)

/-- Ch picks y where x has a 1 bit and z where it has a 0 bit, and Maj is the majority of each bit position, on words of
every width (R127, R157). -/
def Obligations.ChChoosesAndMajVotes : Prop :=
  ∀ (n : Nat) (x y z : BitVec n) (i : Nat), i < n →
    (ch x y z).getLsbD i = (if x.getLsbD i then y.getLsbD i else z.getLsbD i) ∧
    (maj x y z).getLsbD i =
      decide (2 ≤ (x.getLsbD i).toNat + (y.getLsbD i).toNat + (z.getLsbD i).toNat)

/-- The message schedules of both cores (R121, R124, R151, R154): 64 and 80 words, the first 16 the block's big-endian
words, each further one by the recurrence. -/
def Obligations.ScheduleFollowsTheRecurrence : Prop :=
  ∀ blk : List Byte,
    (let w (t : Nat) : Word32 := (schedule core32 blk).getD t 0
     (schedule core32 blk).length = 64 ∧
     (∀ t, t < 16 → w t = beWord 32 ((blk.drop (4 * t)).take 4)) ∧
     (∀ t, 16 ≤ t → t < 64 →
       w t = w (t - 16) + smallSigma0_32 (w (t - 15)) + w (t - 7) + smallSigma1_32 (w (t - 2)))) ∧
    (let w (t : Nat) : Word64 := (schedule core64 blk).getD t 0
     (schedule core64 blk).length = 80 ∧
     (∀ t, t < 16 → w t = beWord 64 ((blk.drop (8 * t)).take 8)) ∧
     (∀ t, 16 ≤ t → t < 80 →
       w t = w (t - 16) + smallSigma0_64 (w (t - 15)) + w (t - 7) + smallSigma1_64 (w (t - 2))))

/-- The register-level datapath with its 16-word schedule window, run for 64 steps in C32 and 80 in C64, returns the value of
Compress32 and of Compress64 for every state and every block (R136, R166). -/
def Obligations.WindowDatapathComputesTheCompression : Prop :=
  (∀ (h : Vector Word32 8) (blk : List Byte), datapathCompress core32 h blk = compress32 h blk) ∧
  (∀ (h : Vector Word64 8) (blk : List Byte), datapathCompress core64 h blk = compress64 h blk)

/-- CompressBlock (R100): it reads variant, H and buf[0..B), writes H alone, and in a C32 variant reads the low halves of the
state words and writes them zero-extended. -/
def Obligations.CompressBlockDispatch : Prop :=
  ∀ s : State,
    compressBlock s = { s with h := (compressBlock s).h } ∧
    ((cfg s.variant).core = .c32 → ∀ i : Fin 8,
      (compressBlock s).h[i] =
        (compress32 (mapWords (BitVec.setWidth 32) s.h) (bufRead 0 64 s.buf))[i].setWidth 64) ∧
    ((cfg s.variant).core = .c64 →
      (compressBlock s).h = compress64 s.h (bufRead 0 128 s.buf))

/-! ### The invariant -/

/-- The invariant holds after reset. It says nothing there of the registers to which reset gives no value. -/
def Obligations.ResetMeetsTheInvariant : Prop := Inv State.reset

/-- Every step keeps the invariant: a cause is latched exactly in FAULTED (R30, R32); and while the message registers hold
values the cursor is total_length mod B (R26, R27), total_length is at most LMAX (R24), and in a C32 variant the upper
halves of the state words (R21) and of the buffer (R25) are zero. R27 gives the cursor only in ACTIVE: in CONSUMED, and in
FAULTED by USE_AFTER_FINALIZE, that the message registers keep the values the clauses speak of is the model's choice among
those R193 and I4 allow (log entry 9). -/
def Obligations.StepKeepsTheInvariant : Prop :=
  ∀ s t : State, Inv s → step s = .next t → Inv t
end

