-- ==== Sys2Proof/Laws/State.lean ====
section
/-! SUPPORT. One lemma per field of `State` for each operation that updates it, true by unfolding that operation once. -/

namespace Sys2Proof.Machine

@[simp] theorem respond_h (st : Status) (data : List Byte) (s : State) : (respond st data s).h = s.h := rfl
@[simp] theorem respond_totalLength (st : Status) (data : List Byte) (s : State) : (respond st data s).totalLength = s.totalLength := rfl
@[simp] theorem respond_buf (st : Status) (data : List Byte) (s : State) : (respond st data s).buf = s.buf := rfl
@[simp] theorem respond_cursor (st : Status) (data : List Byte) (s : State) : (respond st data s).cursor = s.cursor := rfl
@[simp] theorem respond_variant (st : Status) (data : List Byte) (s : State) : (respond st data s).variant = s.variant := rfl
@[simp] theorem respond_phase (st : Status) (data : List Byte) (s : State) : (respond st data s).phase = s.phase := rfl
@[simp] theorem respond_faultCause (st : Status) (data : List Byte) (s : State) : (respond st data s).faultCause = s.faultCause := rfl
@[simp] theorem respond_response (st : Status) (data : List Byte) (s : State) : (respond st data s).response = some ⟨st, data⟩ := rfl
@[simp] theorem respond_inbox (st : Status) (data : List Byte) (s : State) : (respond st data s).inbox = s.inbox := rfl

@[simp] theorem raiseFault_h (c : Cause) (s : State) : (raiseFault c s).h = s.h := rfl
@[simp] theorem raiseFault_totalLength (c : Cause) (s : State) : (raiseFault c s).totalLength = s.totalLength := rfl
@[simp] theorem raiseFault_buf (c : Cause) (s : State) : (raiseFault c s).buf = s.buf := rfl
@[simp] theorem raiseFault_cursor (c : Cause) (s : State) : (raiseFault c s).cursor = s.cursor := rfl
@[simp] theorem raiseFault_variant (c : Cause) (s : State) : (raiseFault c s).variant = s.variant := rfl
@[simp] theorem raiseFault_phase (c : Cause) (s : State) : (raiseFault c s).phase = .faulted := rfl
@[simp] theorem raiseFault_faultCause (c : Cause) (s : State) : (raiseFault c s).faultCause = c := rfl
@[simp] theorem raiseFault_response (c : Cause) (s : State) : (raiseFault c s).response = some ⟨c.status, []⟩ := rfl
@[simp] theorem raiseFault_inbox (c : Cause) (s : State) : (raiseFault c s).inbox = s.inbox := rfl

@[simp] theorem engineFaulted_h (s : State) : (engineFaulted s).h = s.h := rfl
@[simp] theorem engineFaulted_totalLength (s : State) : (engineFaulted s).totalLength = s.totalLength := rfl
@[simp] theorem engineFaulted_buf (s : State) : (engineFaulted s).buf = s.buf := rfl
@[simp] theorem engineFaulted_cursor (s : State) : (engineFaulted s).cursor = s.cursor := rfl
@[simp] theorem engineFaulted_variant (s : State) : (engineFaulted s).variant = s.variant := rfl
@[simp] theorem engineFaulted_phase (s : State) : (engineFaulted s).phase = s.phase := rfl
@[simp] theorem engineFaulted_faultCause (s : State) : (engineFaulted s).faultCause = s.faultCause := rfl
@[simp] theorem engineFaulted_response (s : State) : (engineFaulted s).response = some ⟨.engineFaulted, []⟩ := rfl
@[simp] theorem engineFaulted_inbox (s : State) : (engineFaulted s).inbox = s.inbox := rfl

@[simp] theorem startMessage_h (s : State) : (startMessage s).h = (cfg s.variant).iv := rfl
@[simp] theorem startMessage_totalLength (s : State) : (startMessage s).totalLength = 0 := rfl
@[simp] theorem startMessage_buf (s : State) : (startMessage s).buf = Vector.replicate 128 0 := rfl
@[simp] theorem startMessage_cursor (s : State) : (startMessage s).cursor = 0 := rfl
@[simp] theorem startMessage_variant (s : State) : (startMessage s).variant = s.variant := rfl
@[simp] theorem startMessage_phase (s : State) : (startMessage s).phase = s.phase := rfl
@[simp] theorem startMessage_faultCause (s : State) : (startMessage s).faultCause = s.faultCause := rfl
@[simp] theorem startMessage_response (s : State) : (startMessage s).response = s.response := rfl
@[simp] theorem startMessage_inbox (s : State) : (startMessage s).inbox = s.inbox := rfl

@[simp] theorem compressBlock_h (s : State) : (compressBlock s).h = compressWith s.variant s.h (bufRead 0 (cfg s.variant).blockBytes s.buf) := rfl
@[simp] theorem compressBlock_totalLength (s : State) : (compressBlock s).totalLength = s.totalLength := rfl
@[simp] theorem compressBlock_buf (s : State) : (compressBlock s).buf = s.buf := rfl
@[simp] theorem compressBlock_cursor (s : State) : (compressBlock s).cursor = s.cursor := rfl
@[simp] theorem compressBlock_variant (s : State) : (compressBlock s).variant = s.variant := rfl
@[simp] theorem compressBlock_phase (s : State) : (compressBlock s).phase = s.phase := rfl
@[simp] theorem compressBlock_faultCause (s : State) : (compressBlock s).faultCause = s.faultCause := rfl
@[simp] theorem compressBlock_response (s : State) : (compressBlock s).response = s.response := rfl
@[simp] theorem compressBlock_inbox (s : State) : (compressBlock s).inbox = s.inbox := rfl

@[simp] theorem storeByte_h (d : Byte) (s : State) : (storeByte d s).h = s.h := rfl
@[simp] theorem storeByte_totalLength (d : Byte) (s : State) : (storeByte d s).totalLength = s.totalLength := rfl
@[simp] theorem storeByte_buf (d : Byte) (s : State) : (storeByte d s).buf = s.buf.setIfInBounds s.cursor.toNat d := rfl
@[simp] theorem storeByte_cursor (d : Byte) (s : State) : (storeByte d s).cursor = s.cursor := rfl
@[simp] theorem storeByte_variant (d : Byte) (s : State) : (storeByte d s).variant = s.variant := rfl
@[simp] theorem storeByte_phase (d : Byte) (s : State) : (storeByte d s).phase = s.phase := rfl
@[simp] theorem storeByte_faultCause (d : Byte) (s : State) : (storeByte d s).faultCause = s.faultCause := rfl
@[simp] theorem storeByte_response (d : Byte) (s : State) : (storeByte d s).response = s.response := rfl
@[simp] theorem storeByte_inbox (d : Byte) (s : State) : (storeByte d s).inbox = s.inbox := rfl

@[simp] theorem padOverflowBlock_h (s : State) : (padOverflowBlock s).h = s.h := rfl
@[simp] theorem padOverflowBlock_totalLength (s : State) : (padOverflowBlock s).totalLength = s.totalLength := rfl
@[simp] theorem padOverflowBlock_buf (s : State) : (padOverflowBlock s).buf = bufZero (s.cursor.toNat + 1) (cfg s.variant).blockBytes s.buf := rfl
@[simp] theorem padOverflowBlock_cursor (s : State) : (padOverflowBlock s).cursor = s.cursor := rfl
@[simp] theorem padOverflowBlock_variant (s : State) : (padOverflowBlock s).variant = s.variant := rfl
@[simp] theorem padOverflowBlock_phase (s : State) : (padOverflowBlock s).phase = s.phase := rfl
@[simp] theorem padOverflowBlock_faultCause (s : State) : (padOverflowBlock s).faultCause = s.faultCause := rfl
@[simp] theorem padOverflowBlock_response (s : State) : (padOverflowBlock s).response = s.response := rfl
@[simp] theorem padOverflowBlock_inbox (s : State) : (padOverflowBlock s).inbox = s.inbox := rfl

@[simp] theorem padLengthBlock_h (w : Nat) (s : State) : (padLengthBlock w s).h = s.h := rfl
@[simp] theorem padLengthBlock_totalLength (w : Nat) (s : State) : (padLengthBlock w s).totalLength = s.totalLength := rfl
@[simp] theorem padLengthBlock_buf (w : Nat) (s : State) : (padLengthBlock w s).buf =
      bufWrite ((cfg s.variant).blockBytes - (cfg s.variant).lenBytes)
        (beBytes (cfg s.variant).lenBytes (8 * s.totalLength.toNat))
        (bufZero w ((cfg s.variant).blockBytes - (cfg s.variant).lenBytes) s.buf) := rfl
@[simp] theorem padLengthBlock_cursor (w : Nat) (s : State) : (padLengthBlock w s).cursor = s.cursor := rfl
@[simp] theorem padLengthBlock_variant (w : Nat) (s : State) : (padLengthBlock w s).variant = s.variant := rfl
@[simp] theorem padLengthBlock_phase (w : Nat) (s : State) : (padLengthBlock w s).phase = s.phase := rfl
@[simp] theorem padLengthBlock_faultCause (w : Nat) (s : State) : (padLengthBlock w s).faultCause = s.faultCause := rfl
@[simp] theorem padLengthBlock_response (w : Nat) (s : State) : (padLengthBlock w s).response = s.response := rfl
@[simp] theorem padLengthBlock_inbox (w : Nat) (s : State) : (padLengthBlock w s).inbox = s.inbox := rfl

@[simp] theorem hardReset_phase (s : State) : (hardReset s).phase = .unconfigured := rfl
@[simp] theorem hardReset_faultCause (s : State) : (hardReset s).faultCause = .none := rfl
@[simp] theorem hardReset_response (s : State) : (hardReset s).response = s.response := rfl
@[simp] theorem hardReset_inbox (s : State) : (hardReset s).inbox = s.inbox := rfl

end Sys2Proof.Machine
end

