-- ==== Sys2Proof/Laws/Buffer.lean ====
section
/-! SUPPORT. What the accesses to the buffer do, and what the byte conversions give. -/

namespace Sys2Proof.Machine

theorem bufRead_length (i n : Nat) (buf : Vector Byte 128) :
    (bufRead i n buf).length = min n (128 - i) := by
  simp [bufRead]

/-- A byte of the buffer, as one entry of a read from index 0. -/
theorem bufRead_getElem? (n : Nat) (buf : Vector Byte 128) (i : Nat) :
    (bufRead 0 n buf)[i]? = if i < n then buf[i]? else none := by
  by_cases h : i < n
  · simp [bufRead, h]
  · simp [bufRead, h]

/-- Two buffers read alike from index 0 exactly when they agree below the length read. -/
theorem bufRead_congr {n : Nat} {a b : Vector Byte 128} (h : ∀ i, i < n → a[i]? = b[i]?) :
    bufRead 0 n a = bufRead 0 n b := by
  apply List.ext_getElem?
  intro i
  simp only [bufRead_getElem?]
  split
  · exact h i ‹_›
  · rfl

/-- Reading the first n + 1 bytes after byte n was written. -/
theorem bufRead_set {n : Nat} (hn : n < 128) (d : Byte) (buf : Vector Byte 128) :
    bufRead 0 (n + 1) (buf.setIfInBounds n d) = bufRead 0 n buf ++ [d] := by
  apply List.ext_getElem?
  intro i
  have hl : (bufRead 0 n buf).length = n := by rw [bufRead_length]; omega
  rw [bufRead_getElem?]
  rcases Nat.lt_trichotomy i n with h | h | h
  · rw [List.getElem?_append_left (by omega), bufRead_getElem?, if_pos h, if_pos (by omega),
      Vector.getElem?_setIfInBounds_ne (by omega)]
  · subst h
    rw [List.getElem?_append_right (by omega), if_pos (by omega), hl,
      Vector.getElem?_setIfInBounds_self_of_lt hn]
    simp
  · rw [if_neg (by omega), List.getElem?_append_right (by omega), hl]
    simp [show i - n ≠ 0 by omega]

/-- What `BufWrite` leaves at an index: the byte written there, or the byte that stood there. -/
theorem bufWrite_getElem? (bs : List Byte) : ∀ (i : Nat) (buf : Vector Byte 128) (j : Nat),
    (bufWrite i bs buf)[j]? =
      if i ≤ j ∧ j < i + bs.length ∧ j < 128 then bs[j - i]? else buf[j]? := by
  induction bs with
  | nil =>
    intro i buf j
    rw [if_neg (by simp; omega)]
    rfl
  | cons b bs ih =>
    intro i buf j
    rw [bufWrite, ih]
    simp only [List.length_cons]
    by_cases h1 : i + 1 ≤ j ∧ j < i + 1 + bs.length ∧ j < 128
    · rw [if_pos h1, if_pos (by omega), show j - i = (j - (i + 1)) + 1 by omega,
        List.getElem?_cons_succ]
    · rw [if_neg h1]
      by_cases h2 : j = i ∧ j < 128
      · obtain ⟨rfl, h2⟩ := h2
        rw [if_pos (by omega), Vector.getElem?_setIfInBounds_self_of_lt h2]
        simp
      · rw [if_neg (by omega)]
        by_cases h3 : i = j
        · subst h3
          have : ¬ i < 128 := by omega
          simp [this]
        · rw [Vector.getElem?_setIfInBounds_ne h3]

/-- Reading back up to the end of a write at index i. -/
theorem bufRead_bufWrite {i : Nat} (bs : List Byte) (buf : Vector Byte 128)
    (h : i + bs.length ≤ 128) :
    bufRead 0 (i + bs.length) (bufWrite i bs buf) = bufRead 0 i buf ++ bs := by
  apply List.ext_getElem?
  intro j
  have hl : (bufRead 0 i buf).length = i := by rw [bufRead_length]; omega
  rw [bufRead_getElem?, bufWrite_getElem?]
  by_cases h1 : j < i
  · rw [if_pos (by omega), if_neg (by omega), List.getElem?_append_left (by omega),
      bufRead_getElem?, if_pos h1]
  · rw [List.getElem?_append_right (by omega), hl]
    by_cases h2 : j < i + bs.length
    · rw [if_pos h2, if_pos (by omega)]
    · rw [if_neg h2, List.getElem?_eq_none (by omega)]

/-- Reading back up to the end of a zero fill. -/
theorem bufRead_bufZero {i j : Nat} (buf : Vector Byte 128) (hij : i ≤ j) (hj : j ≤ 128) :
    bufRead 0 j (bufZero i j buf) = bufRead 0 i buf ++ List.replicate (j - i) 0 := by
  have h := bufRead_bufWrite (i := i) (List.replicate (j - i) 0) buf (by simp; omega)
  simp only [List.length_replicate] at h
  rwa [show i + (j - i) = j by omega] at h

/-- A write leaves every byte outside it alone. -/
theorem bufWrite_outside (i : Nat) (bs : List Byte) (buf : Vector Byte 128) (j : Nat)
    (h : j < i ∨ i + bs.length ≤ j) : (bufWrite i bs buf)[j]? = buf[j]? := by
  rw [bufWrite_getElem?, if_neg (by omega)]

@[simp] theorem beBytes_length (k x : Nat) : (beBytes k x).length = k := by
  induction k with
  | zero => rfl
  | succ k ih => simp [beBytes, ih]

@[simp] theorem wordBytes_length {n : Nat} (x : BitVec n) : (wordBytes x).length = n / 8 := by
  simp [wordBytes]

@[simp] theorem blockWords_length (n wb : Nat) (blk : List Byte) :
    (blockWords n wb blk).length = 16 := by
  simp [blockWords]

end Sys2Proof.Machine
end

