-- ==== Sys2Proof/Laws/Absorb.lean ====
section
/-! SUPPORT. What absorbing bytes does: to the registers it leaves alone, and to H, the cursor and the buffered bytes. -/

namespace Sys2Proof.Machine

theorem blockBytes_pos (v : Variant) : 0 < (cfg v).blockBytes := by cases v <;> decide

theorem blockBytes_le (v : Variant) : (cfg v).blockBytes ≤ 128 := by cases v <;> decide

theorem lmax_lt (v : Variant) : lmax v < 2 ^ 125 := by cases v <;> decide

@[simp] theorem compressBlocks_zero (v : Variant) (bs : List Byte) (h : Vector Word64 8) :
    compressBlocks v 0 bs h = h := rfl

/-- Compressing a + b blocks is compressing a of them and then the b that follow. -/
theorem compressBlocks_add (v : Variant) (a b : Nat) : ∀ (bs : List Byte) (h : Vector Word64 8),
    compressBlocks v (a + b) bs h =
      compressBlocks v b (bs.drop (a * (cfg v).blockBytes)) (compressBlocks v a bs h) := by
  induction a with
  | zero => intro bs h; simp
  | succ a ih =>
    intro bs h
    rw [show a + 1 + b = (a + b) + 1 by omega, compressBlocks, compressBlocks, ih,
      List.drop_drop, show (cfg v).blockBytes + a * (cfg v).blockBytes
        = (a + 1) * (cfg v).blockBytes by rw [Nat.add_mul]; omega]

/-- Compressing a blocks reads only those blocks. -/
theorem compressBlocks_append (v : Variant) (a : Nat) : ∀ (xs ys : List Byte) (h : Vector Word64 8),
    a * (cfg v).blockBytes ≤ xs.length →
      compressBlocks v a (xs ++ ys) h = compressBlocks v a xs h := by
  induction a with
  | zero => intros; rfl
  | succ a ih =>
    intro xs ys h hl
    have hb : (a + 1) * (cfg v).blockBytes = a * (cfg v).blockBytes + (cfg v).blockBytes := by
      rw [Nat.add_mul]; omega
    rw [compressBlocks, compressBlocks, List.drop_append_of_le_length (by omega),
      List.take_append_of_le_length (by omega)]
    exact ih _ _ _ (by simp; omega)

/-- Compressing one block that is the whole of a byte sequence. -/
theorem compressBlocks_one (v : Variant) (blk : List Byte) (h : Vector Word64 8)
    (hl : blk.length = (cfg v).blockBytes) : compressBlocks v 1 blk h = compressWith v h blk := by
  simp [compressBlocks, ← hl]

section
variable (d : Byte) (ds : List Byte) (s : State)

@[simp] theorem absorbByte_variant : (absorbByte d s).variant = s.variant := by
  unfold absorbByte; split <;> rfl
@[simp] theorem absorbByte_phase : (absorbByte d s).phase = s.phase := by
  unfold absorbByte; split <;> rfl
@[simp] theorem absorbByte_faultCause : (absorbByte d s).faultCause = s.faultCause := by
  unfold absorbByte; split <;> rfl
@[simp] theorem absorbByte_response : (absorbByte d s).response = s.response := by
  unfold absorbByte; split <;> rfl
@[simp] theorem absorbByte_inbox : (absorbByte d s).inbox = s.inbox := by
  unfold absorbByte; split <;> rfl
@[simp] theorem absorbByte_totalLength : (absorbByte d s).totalLength = s.totalLength := by
  unfold absorbByte; split <;> rfl
@[simp] theorem absorbByte_buf :
    (absorbByte d s).buf = s.buf.setIfInBounds s.cursor.toNat d := by
  unfold absorbByte; split <;> rfl

end

section
variable (ds : List Byte)

@[simp] theorem absorbAll_variant : ∀ s, (absorbAll ds s).variant = s.variant := by
  induction ds with
  | nil => intro s; rfl
  | cons d ds ih => intro s; simp [absorbAll, ih]
@[simp] theorem absorbAll_phase : ∀ s, (absorbAll ds s).phase = s.phase := by
  induction ds with
  | nil => intro s; rfl
  | cons d ds ih => intro s; simp [absorbAll, ih]
@[simp] theorem absorbAll_faultCause : ∀ s, (absorbAll ds s).faultCause = s.faultCause := by
  induction ds with
  | nil => intro s; rfl
  | cons d ds ih => intro s; simp [absorbAll, ih]
@[simp] theorem absorbAll_response : ∀ s, (absorbAll ds s).response = s.response := by
  induction ds with
  | nil => intro s; rfl
  | cons d ds ih => intro s; simp [absorbAll, ih]
@[simp] theorem absorbAll_inbox : ∀ s, (absorbAll ds s).inbox = s.inbox := by
  induction ds with
  | nil => intro s; rfl
  | cons d ds ih => intro s; simp [absorbAll, ih]
@[simp] theorem absorbAll_totalLength : ∀ s, (absorbAll ds s).totalLength = s.totalLength := by
  induction ds with
  | nil => intro s; rfl
  | cons d ds ih => intro s; simp [absorbAll, ih]

end

/-- Absorbing a concatenation is absorbing its parts one after the other. -/
theorem absorbAll_append (xs ys : List Byte) : ∀ s,
    absorbAll (xs ++ ys) s = absorbAll ys (absorbAll xs s) := by
  induction xs with
  | nil => intro s; rfl
  | cons x xs ih => intro s; exact ih _

/-- AbsorbByte where the byte does not fill the block. -/
theorem absorbByte_short (d : Byte) (s : State)
    (h : s.cursor.toNat + 1 < (cfg s.variant).blockBytes) :
    (absorbByte d s).h = s.h ∧ (absorbByte d s).cursor.toNat = s.cursor.toNat + 1 := by
  have hb := blockBytes_le s.variant
  refine ⟨?_, ?_⟩ <;> rw [absorbByte, if_neg (by omega)]
  · rfl
  · simp [BitVec.toNat_add]; omega

/-- AbsorbByte where the byte fills the block. -/
theorem absorbByte_full (d : Byte) (s : State)
    (h : s.cursor.toNat + 1 = (cfg s.variant).blockBytes) :
    (absorbByte d s).h =
        compressWith s.variant s.h (bufRead 0 s.cursor.toNat s.buf ++ [d]) ∧
      (absorbByte d s).cursor = 0 := by
  refine ⟨?_, ?_⟩ <;> rw [absorbByte, if_pos h]
  have hr := bufRead_set s.cursor.isLt d s.buf
  rw [h] at hr
  simp [hr]

/-- What absorbing a payload does, from any cursor within the block: with `all` the buffered bytes followed by the
payload, H has taken every full block of `all`, and the bytes after them are buffered. -/
theorem absorbAll_spec (ds : List Byte) : ∀ s : State,
    s.cursor.toNat < (cfg s.variant).blockBytes →
    let all := bufRead 0 s.cursor.toNat s.buf ++ ds
    let b := (cfg s.variant).blockBytes
    (absorbAll ds s).h = compressBlocks s.variant (all.length / b) all s.h ∧
      (absorbAll ds s).cursor.toNat = all.length % b ∧
      bufRead 0 (absorbAll ds s).cursor.toNat (absorbAll ds s).buf =
        all.drop (all.length / b * b) := by
  induction ds with
  | nil =>
    intro s hc
    have hb := blockBytes_le s.variant
    have hl : (bufRead 0 s.cursor.toNat s.buf).length = s.cursor.toNat := by
      rw [bufRead_length]; omega
    simp [absorbAll, hl, Nat.div_eq_of_lt hc, Nat.mod_eq_of_lt hc]
  | cons d ds ih =>
    intro s hc
    have hb := blockBytes_le s.variant
    have hl : (bufRead 0 s.cursor.toNat s.buf).length = s.cursor.toNat := by
      rw [bufRead_length]; omega
    have hcons : bufRead 0 s.cursor.toNat s.buf ++ d :: ds =
        (bufRead 0 s.cursor.toNat s.buf ++ [d]) ++ ds := by simp
    by_cases h : s.cursor.toNat + 1 = (cfg s.variant).blockBytes
    · obtain ⟨hh, hcur⟩ := absorbByte_full d s h
      have ih := ih (absorbByte d s) (by rw [hcur]; exact blockBytes_pos _)
      have hblk : (bufRead 0 s.cursor.toNat s.buf ++ [d]).length = (cfg s.variant).blockBytes := by
        simp [hl, h]
      simp only [hcur, absorbByte_variant, hh] at ih
      rw [show bufRead 0 (BitVec.toNat (0 : BitVec 7)) (absorbByte d s).buf = [] by
        simp [bufRead], List.nil_append] at ih
      have hdiv : ((bufRead 0 s.cursor.toNat s.buf ++ [d]) ++ ds).length / (cfg s.variant).blockBytes
          = 1 + ds.length / (cfg s.variant).blockBytes := by
        rw [List.length_append, hblk, Nat.add_div_left _ (blockBytes_pos _)]; omega
      have hrest : ((bufRead 0 s.cursor.toNat s.buf ++ [d]) ++ ds).drop (cfg s.variant).blockBytes
          = ds := by rw [← hblk, List.drop_left]
      simp only [hcons, absorbAll]
      refine ⟨?_, ?_, ?_⟩
      · rw [ih.1, hdiv, compressBlocks_add, Nat.one_mul, hrest,
          compressBlocks_append _ _ _ _ _ (by omega), compressBlocks_one _ _ _ hblk]
      · rw [ih.2.1, List.length_append, hblk, Nat.add_mod_left]
      · rw [ih.2.2, hdiv, Nat.add_mul, Nat.one_mul, ← List.drop_drop, hrest]
    · obtain ⟨hh, hcur⟩ := absorbByte_short d s (by omega)
      have ih := ih (absorbByte d s) (by rw [hcur, absorbByte_variant]; omega)
      simp only [hcur, absorbByte_variant, absorbByte_buf, hh,
        bufRead_set s.cursor.isLt d s.buf] at ih
      simpa only [hcons, absorbAll] using ih

/-- AbsorbByte writes the byte at the cursor and no other byte of the buffer. -/
theorem absorbByte_buf_ne (d : Byte) (s : State) (i : Nat) (h : i ≠ s.cursor.toNat) :
    (absorbByte d s).buf[i]? = s.buf[i]? := by
  rw [absorbByte_buf, Vector.getElem?_setIfInBounds_ne (by omega)]

/-- The cursor after one byte, from any cursor within the block. -/
theorem absorbByte_cursor (d : Byte) (s : State)
    (hc : s.cursor.toNat < (cfg s.variant).blockBytes) :
    (absorbByte d s).cursor.toNat = (s.cursor.toNat + 1) % (cfg s.variant).blockBytes := by
  by_cases h : s.cursor.toNat + 1 = (cfg s.variant).blockBytes
  · rw [(absorbByte_full d s h).2, h]; simp
  · rw [(absorbByte_short d s (by omega)).2, Nat.mod_eq_of_lt (by omega)]

/-- UPDATE in ACTIVE either faults with LENGTH_OVERFLOW or absorbs its payload. -/
theorem performUpdate_cases (d : List Byte) (s : State) :
    (lmax s.variant < s.totalLength.toNat + d.length ∧
      performUpdate d s = raiseFault .lengthOverflow s) ∨
    (s.totalLength.toNat + d.length ≤ lmax s.variant ∧
      performUpdate d s = respond .ok []
        { absorbAll d s with totalLength := s.totalLength + BitVec.ofNat 128 d.length }) := by
  unfold performUpdate
  split
  · exact .inl ⟨by omega, rfl⟩
  · exact .inr ⟨by omega, rfl⟩

/-- The counter after an accepted UPDATE is the exact sum. -/
theorem totalLength_add (v : Variant) (t : BitVec 128) (n : Nat) (h : t.toNat + n ≤ lmax v) :
    (t + BitVec.ofNat 128 n).toNat = t.toNat + n := by
  have := lmax_lt v
  rw [BitVec.toNat_add, BitVec.toNat_ofNat, Nat.add_mod_mod, Nat.mod_eq_of_lt (by omega)]

end Sys2Proof.Machine
end

