-- ==== Sys2Proof/Laws/Pad.lean ====
section
/-! SUPPORT. What Pad() does: the registers it leaves alone, the blocks it compresses, and the bytes it writes. -/

namespace Sys2Proof.Machine

theorem lenBytes_le (v : Variant) : (cfg v).lenBytes ≤ (cfg v).blockBytes := by
  cases v <;> decide

section
variable (s : State)

@[simp] theorem pad_variant : (pad s).variant = s.variant := by unfold pad; split <;> rfl
@[simp] theorem pad_totalLength : (pad s).totalLength = s.totalLength := by
  unfold pad; split <;> rfl
@[simp] theorem pad_cursor : (pad s).cursor = s.cursor := by unfold pad; split <;> rfl
@[simp] theorem pad_phase : (pad s).phase = s.phase := by unfold pad; split <;> rfl
@[simp] theorem pad_faultCause : (pad s).faultCause = s.faultCause := by unfold pad; split <;> rfl
@[simp] theorem pad_response : (pad s).response = s.response := by unfold pad; split <;> rfl
@[simp] theorem pad_inbox : (pad s).inbox = s.inbox := by unfold pad; split <;> rfl

end

/-- Pad() step 2's condition as a proposition. -/
theorem padOverflows_iff (s : State) : padOverflows s = true ↔
    (cfg s.variant).blockBytes - (cfg s.variant).lenBytes < s.cursor.toNat + 1 := by
  simp [padOverflows]

/-- The length field of Pad() step 4. -/
abbrev lengthField (s : State) : List Byte :=
  beBytes (cfg s.variant).lenBytes (8 * s.totalLength.toNat)

/-- The one block of Pad() where the length field fits after the terminator. -/
abbrev padFitBlock (s : State) : List Byte :=
  bufRead 0 s.cursor.toNat s.buf ++ [0x80] ++
    List.replicate ((cfg s.variant).blockBytes - (cfg s.variant).lenBytes - (s.cursor.toNat + 1)) 0 ++
    lengthField s

/-- The first block of Pad() where it does not. -/
abbrev padFirstBlock (s : State) : List Byte :=
  bufRead 0 s.cursor.toNat s.buf ++ [0x80] ++
    List.replicate ((cfg s.variant).blockBytes - (s.cursor.toNat + 1)) 0

/-- The second block of Pad() where it does not. -/
abbrev padSecondBlock (s : State) : List Byte :=
  List.replicate ((cfg s.variant).blockBytes - (cfg s.variant).lenBytes) 0 ++ lengthField s

/-- Reading the block that steps 3 and 4 complete, from a working cursor before the length field. -/
theorem bufRead_padLengthBlock (w : Nat) (s : State)
    (hw : w ≤ (cfg s.variant).blockBytes - (cfg s.variant).lenBytes) :
    bufRead 0 (cfg s.variant).blockBytes (padLengthBlock w s).buf =
      bufRead 0 w s.buf ++
        List.replicate ((cfg s.variant).blockBytes - (cfg s.variant).lenBytes - w) 0 ++
        lengthField s := by
  have hb := blockBytes_le s.variant
  have hl := lenBytes_le s.variant
  have hr := bufRead_bufWrite
    (i := (cfg s.variant).blockBytes - (cfg s.variant).lenBytes) (lengthField s)
    (bufZero w ((cfg s.variant).blockBytes - (cfg s.variant).lenBytes) s.buf)
    (by rw [beBytes_length]; omega)
  rw [beBytes_length, bufRead_bufZero s.buf hw (by omega)] at hr
  rw [padLengthBlock_buf, ← hr]
  congr 1
  omega

/-- Pad() where the length field fits: one compression (R188), of this block. -/
theorem pad_fits (s : State) (h : padOverflows s = false) :
    (pad s).h = compressWith s.variant s.h (padFitBlock s) ∧
      bufRead 0 (cfg s.variant).blockBytes (pad s).buf = padFitBlock s := by
  have hc : s.cursor.toNat + 1 ≤ (cfg s.variant).blockBytes - (cfg s.variant).lenBytes := by
    have := padOverflows_iff s
    rw [h] at this
    simp at this
    omega
  have hr := bufRead_padLengthBlock (s.cursor.toNat + 1) (storeByte 0x80 s) hc
  rw [storeByte_buf, bufRead_set s.cursor.isLt] at hr
  refine ⟨?_, ?_⟩ <;> rw [pad, if_neg (by simp [h])]
  · rw [compressBlock_h, padLengthBlock_variant, storeByte_variant, padLengthBlock_h, storeByte_h]
    exact congrArg _ hr
  · rw [compressBlock_buf]
    exact hr

/-- Pad() where it does not: two compressions (R188), of these blocks. -/
theorem pad_overflows (s : State) (h : padOverflows s = true)
    (hc : s.cursor.toNat < (cfg s.variant).blockBytes) :
    (pad s).h =
        compressWith s.variant (compressWith s.variant s.h (padFirstBlock s)) (padSecondBlock s) ∧
      bufRead 0 (cfg s.variant).blockBytes (padOverflowBlock (storeByte 0x80 s)).buf =
        padFirstBlock s ∧
      bufRead 0 (cfg s.variant).blockBytes (pad s).buf = padSecondBlock s := by
  have hb := blockBytes_le s.variant
  have h1 : bufRead 0 (cfg s.variant).blockBytes (padOverflowBlock (storeByte 0x80 s)).buf =
      padFirstBlock s := by
    rw [padOverflowBlock_buf, storeByte_cursor, storeByte_variant, storeByte_buf,
      bufRead_bufZero _ (by omega) hb, bufRead_set s.cursor.isLt]
  have h2 := bufRead_padLengthBlock 0 (compressBlock (padOverflowBlock (storeByte 0x80 s)))
    (Nat.zero_le _)
  rw [show ∀ b, bufRead 0 0 b = [] from fun b => by simp [bufRead], List.nil_append] at h2
  refine ⟨?_, h1, ?_⟩ <;> rw [pad, if_pos h]
  · rw [compressBlock_h, padLengthBlock_h, compressBlock_h]
    exact (congrArg _ h2).trans (congrArg (fun x => compressWith _ (compressWith _ _ x) _) h1)
  · rw [compressBlock_buf]
    exact h2

/-- Pad() writes no byte of the buffer outside the block. -/
theorem pad_buf_outside (s : State) (hc : s.cursor.toNat < (cfg s.variant).blockBytes) (i : Nat)
    (h : (cfg s.variant).blockBytes ≤ i) : (pad s).buf[i]? = s.buf[i]? := by
  have hl := lenBytes_le s.variant
  unfold pad
  split
  · simp only [compressBlock_buf, padLengthBlock_buf, compressBlock_variant,
      padOverflowBlock_variant, storeByte_variant, padOverflowBlock_buf, bufZero]
    rw [bufWrite_outside _ _ _ _ (.inr (by rw [beBytes_length]; omega)),
      bufWrite_outside _ _ _ _ (.inr (by simp; omega)),
      bufWrite_outside _ _ _ _ (.inr (by simp; omega)),
      storeByte_buf, Vector.getElem?_setIfInBounds_ne (by omega)]
  · simp only [compressBlock_buf, padLengthBlock_buf, storeByte_variant, bufZero]
    rw [bufWrite_outside _ _ _ _ (.inr (by rw [beBytes_length]; omega)),
      bufWrite_outside _ _ _ _ (.inr (by simp; omega)),
      storeByte_buf, Vector.getElem?_setIfInBounds_ne (by omega)]

/-- Where the length field fits, Pad() writes no byte before the cursor either. -/
theorem pad_buf_before (s : State) (hp : padOverflows s = false) (i : Nat)
    (h : i < s.cursor.toNat) : (pad s).buf[i]? = s.buf[i]? := by
  have hfit := padOverflows_iff s
  rw [hp] at hfit
  simp at hfit
  simp only [pad, hp, compressBlock_buf, padLengthBlock_buf, storeByte_variant, bufZero,
    Bool.false_eq_true, if_false]
  rw [bufWrite_outside _ _ _ _ (.inl (by omega)), bufWrite_outside _ _ _ _ (.inl (by omega)),
    storeByte_buf, Vector.getElem?_setIfInBounds_ne (by omega)]

end Sys2Proof.Machine
end

