-- ==== Sys2Proof/Laws/Commands.lean ====
section
/-! SUPPORT. What each shared operation of the commands can do, said once: the phase checks, an illegal command, taking
the host's next event, and one step. -/

namespace Sys2Proof.Machine

theorem acceptInit_cases (k : State → State) (s : State) :
    (s.phase = .faulted ∧ acceptInit k s = engineFaulted s) ∨
    (s.phase ≠ .faulted ∧ acceptInit k s = k s) := by
  unfold acceptInit
  cases h : s.phase <;> simp

theorem acceptActive_cases (k : State → State) (s : State) :
    (s.phase = .faulted ∧ acceptActive k s = engineFaulted s) ∨
    (s.phase = .unconfigured ∧ acceptActive k s = raiseFault .notConfigured s) ∨
    (s.phase = .consumed ∧ acceptActive k s = raiseFault .useAfterFinalize s) ∨
    (s.phase = .active ∧ acceptActive k s = k s) := by
  unfold acceptActive
  cases h : s.phase <;> simp

theorem illegalCommand_cases (s : State) :
    (s.phase = .faulted ∧ illegalCommand s = engineFaulted s) ∨
    (s.phase ≠ .faulted ∧ illegalCommand s = raiseFault .illegalCommand s) := by
  unfold illegalCommand
  cases h : s.phase <;> simp

/-- The six INIT commands are one meaning at six variants. -/
theorem exec_initOf (v : Variant) (s : State) :
    exec (initOf v) s = .next (acceptInit (performInit v) s) := by cases v <;> rfl

theorem exec_update (d : List Byte) (s : State) :
    exec (.update d) s = .next (acceptActive (performUpdate d) s) := rfl

theorem exec_finalize (s : State) :
    exec .finalize s = .next (acceptActive performFinalize s) := rfl

theorem exec_finalizeReset (s : State) :
    exec .finalizeReset s = .next (acceptActive performFinalizeReset s) := rfl

/-- Every instruction is an INIT, an UPDATE or one of the two finalize commands. -/
theorem instr_cases (i : Instr) :
    (∃ v, i = initOf v) ∨ (∃ d, i = .update d) ∨ i = .finalize ∨ i = .finalizeReset := by
  cases i with
  | initSha224 => exact .inl ⟨.sha224, rfl⟩
  | initSha256 => exact .inl ⟨.sha256, rfl⟩
  | initSha384 => exact .inl ⟨.sha384, rfl⟩
  | initSha512 => exact .inl ⟨.sha512, rfl⟩
  | initSha512_224 => exact .inl ⟨.sha512_224, rfl⟩
  | initSha512_256 => exact .inl ⟨.sha512_256, rfl⟩
  | update d => exact .inr (.inl ⟨d, rfl⟩)
  | finalize => exact .inr (.inr (.inl rfl))
  | finalizeReset => exact .inr (.inr (.inr rfl))

@[simp] theorem initOf_ne_update (v : Variant) (d : List Byte) : initOf v ≠ .update d := by
  cases v <;> simp [initOf]
@[simp] theorem initOf_ne_finalize (v : Variant) : initOf v ≠ .finalize := by
  cases v <;> simp [initOf]
@[simp] theorem initOf_ne_finalizeReset (v : Variant) : initOf v ≠ .finalizeReset := by
  cases v <;> simp [initOf]
@[simp] theorem update_ne_initOf (v : Variant) (d : List Byte) : .update d ≠ initOf v :=
  (initOf_ne_update v d).symm
@[simp] theorem finalize_ne_initOf (v : Variant) : .finalize ≠ initOf v := (initOf_ne_finalize v).symm
@[simp] theorem finalizeReset_ne_initOf (v : Variant) : .finalizeReset ≠ initOf v :=
  (initOf_ne_finalizeReset v).symm

/-- When a command other than INIT takes a fault, and with which cause (R241, R243). -/
abbrev FaultsWith (i : Instr) (s : State) (c : Cause) : Prop :=
  (s.phase = .unconfigured ∧ c = .notConfigured) ∨
  (s.phase = .consumed ∧ c = .useAfterFinalize) ∨
  (s.phase = .active ∧ c = .lengthOverflow ∧
    ∃ d, i = .update d ∧ lmax s.variant < s.totalLength.toNat + d.length)

/-- What one command can do to the state: nothing but respond (FAULTED), take one of the faults, or have its effect. -/
theorem exec_cases (i : Instr) (s t : State) (h : exec i s = .next t) :
    (s.phase = .faulted ∧ t = engineFaulted s) ∨
    (∃ c, (∀ v, i ≠ initOf v) ∧ FaultsWith i s c ∧ t = raiseFault c s) ∨
    (∃ v, i = initOf v ∧ s.phase ≠ .faulted ∧ t = performInit v s) ∨
    (∃ d, i = .update d ∧ s.phase = .active ∧ s.totalLength.toNat + d.length ≤ lmax s.variant ∧
      t = respond .ok []
        { absorbAll d s with totalLength := s.totalLength + BitVec.ofNat 128 d.length }) ∨
    (i = .finalize ∧ s.phase = .active ∧ t = performFinalize s) ∨
    (i = .finalizeReset ∧ s.phase = .active ∧ t = performFinalizeReset s) := by
  rcases instr_cases i with ⟨v, rfl⟩ | ⟨d, rfl⟩ | rfl | rfl
  · rw [exec_initOf] at h
    injection h with h
    rcases acceptInit_cases (performInit v) s with ⟨hp, he⟩ | ⟨hp, he⟩ <;> rw [he] at h
    · exact .inl ⟨hp, h.symm⟩
    · exact .inr (.inr (.inl ⟨v, rfl, hp, h.symm⟩))
  · rw [exec_update] at h
    injection h with h
    rcases acceptActive_cases (performUpdate d) s with ⟨hp, he⟩ | ⟨hp, he⟩ | ⟨hp, he⟩ | ⟨hp, he⟩ <;>
      rw [he] at h
    · exact .inl ⟨hp, h.symm⟩
    · exact .inr (.inl ⟨_, by simp, .inl ⟨hp, rfl⟩, h.symm⟩)
    · exact .inr (.inl ⟨_, by simp, .inr (.inl ⟨hp, rfl⟩), h.symm⟩)
    · rcases performUpdate_cases d s with ⟨hl, hu⟩ | ⟨hl, hu⟩ <;> rw [hu] at h
      · exact .inr (.inl ⟨_, by simp, .inr (.inr ⟨hp, rfl, d, rfl, hl⟩), h.symm⟩)
      · exact .inr (.inr (.inr (.inl ⟨d, rfl, hp, hl, h.symm⟩)))
  · rw [exec_finalize] at h
    injection h with h
    rcases acceptActive_cases performFinalize s with ⟨hp, he⟩ | ⟨hp, he⟩ | ⟨hp, he⟩ | ⟨hp, he⟩ <;>
      rw [he] at h
    · exact .inl ⟨hp, h.symm⟩
    · exact .inr (.inl ⟨_, by simp, .inl ⟨hp, rfl⟩, h.symm⟩)
    · exact .inr (.inl ⟨_, by simp, .inr (.inl ⟨hp, rfl⟩), h.symm⟩)
    · exact .inr (.inr (.inr (.inr (.inl ⟨rfl, hp, h.symm⟩))))
  · rw [exec_finalizeReset] at h
    injection h with h
    rcases acceptActive_cases performFinalizeReset s with
      ⟨hp, he⟩ | ⟨hp, he⟩ | ⟨hp, he⟩ | ⟨hp, he⟩ <;> rw [he] at h
    · exact .inl ⟨hp, h.symm⟩
    · exact .inr (.inl ⟨_, by simp, .inl ⟨hp, rfl⟩, h.symm⟩)
    · exact .inr (.inl ⟨_, by simp, .inr (.inl ⟨hp, rfl⟩), h.symm⟩)
    · exact .inr (.inr (.inr (.inr (.inr ⟨rfl, hp, h.symm⟩))))

/-- Every command completes: `exec` answers a next state for every instruction in every state. -/
theorem exec_next (i : Instr) (s : State) : ∃ t, exec i s = .next t := by
  cases i <;> exact ⟨_, rfl⟩

/-- What one step can do, by the host's next event. -/
theorem step_cases (s t : State) (h : step s = .next t) :
    (s.inbox = [] ∧ t = s) ∨
    (∃ rest, s.inbox = .takeResponse :: rest ∧ t = { s with response := .none, inbox := rest }) ∨
    (∃ rest, s.inbox = .reset :: rest ∧ t = hardReset { s with inbox := rest }) ∨
    (∃ c rest, s.inbox = .commandCutByReset c :: rest ∧ s.response = none ∧
      t = hardReset { s with inbox := rest }) ∨
    (∃ c rest why, s.inbox = .command c :: rest ∧ s.response = none ∧ decode c = .illegal why ∧
      t = illegalCommand { s with inbox := rest }) ∨
    (∃ c rest i, s.inbox = .command c :: rest ∧ s.response = none ∧ decode c = .command i ∧
      exec i { s with inbox := rest } = .next t) := by
  unfold step at h
  cases hi : s.inbox with
  | nil =>
    simp only [fetch, hi] at h
    injection h with h
    exact .inl ⟨rfl, h.symm⟩
  | cons e rest =>
    cases e with
    | takeResponse =>
      simp only [fetch, hi] at h
      injection h with h
      exact .inr (.inl ⟨rest, rfl, h.symm⟩)
    | reset =>
      simp only [fetch, hi] at h
      injection h with h
      exact .inr (.inr (.inl ⟨rest, rfl, h.symm⟩))
    | commandCutByReset c =>
      cases hr : s.response with
      | some r => simp [fetch, hi, hr] at h
      | none =>
        simp only [fetch, hi, hr] at h
        injection h with h
        exact .inr (.inr (.inr (.inl ⟨c, rest, rfl, rfl, by rw [← h]⟩)))
    | command c =>
      cases hr : s.response with
      | some r => simp [fetch, hi, hr] at h
      | none =>
        cases hd : decode c with
        | illegal why =>
          simp only [fetch, hi, hr, present, hd] at h
          injection h with h
          exact .inr (.inr (.inr (.inr (.inl ⟨c, rest, why, rfl, rfl, hd, by rw [← h]⟩))))
        | command i =>
          simp only [fetch, hi, hr, present, hd] at h
          exact .inr (.inr (.inr (.inr (.inr ⟨c, rest, i, rfl, rfl, hd, by rw [← h]⟩))))

end Sys2Proof.Machine
end

