-- ==== Sys2Proof/Laws/Message.lean ====
section
/-! SUPPORT. What absorbing a payload does to the message the registers stand for, and what a run of commands is made of. -/

namespace Sys2Proof.Machine

theorem absorbAll_eq_foldl (d : List Byte) :
    ∀ s, absorbAll d s = d.foldl (fun u x => absorbByte x u) s := by
  induction d with
  | nil => intro s; rfl
  | cons d ds ih => intro s; exact ih _

/-- Absorbing a byte reads neither the counter nor the response channel. -/
theorem absorbByte_irrel (x : Byte) (s : State) (n : BitVec 128) (r : Option Response) :
    absorbByte x { s with totalLength := n, response := r } =
      { absorbByte x s with totalLength := n, response := r } := by
  unfold absorbByte
  split <;> rfl

theorem absorbAll_irrel (d : List Byte) (n : BitVec 128) (r : Option Response) : ∀ s : State,
    absorbAll d { s with totalLength := n, response := r } =
      { absorbAll d s with totalLength := n, response := r } := by
  induction d with
  | nil => intro s; rfl
  | cons x d ih => intro s; rw [absorbAll, absorbByte_irrel, ih]; rfl

/-- A buffer byte on which no payload byte lands stays. -/
theorem absorbAll_buf_ne (d : List Byte) (i : Nat) : ∀ s : State,
    s.cursor.toNat < (cfg s.variant).blockBytes →
    (∀ j, j < d.length → (s.cursor.toNat + j) % (cfg s.variant).blockBytes ≠ i) →
    (absorbAll d s).buf[i]? = s.buf[i]? := by
  induction d with
  | nil => intros; rfl
  | cons x d ih =>
    intro s hc h
    have hm : (absorbByte x s).cursor.toNat < (cfg (absorbByte x s).variant).blockBytes := by
      rw [absorbByte_cursor x s hc, absorbByte_variant]
      exact Nat.mod_lt _ (blockBytes_pos _)
    rw [absorbAll, ih (absorbByte x s) hm]
    · apply absorbByte_buf_ne
      have := h 0 (by simp)
      rw [Nat.add_zero, Nat.mod_eq_of_lt hc] at this
      omega
    · intro j hj
      have := h (j + 1) (by simp; omega)
      rw [absorbByte_cursor x s hc, absorbByte_variant, Nat.mod_add_mod]
      rwa [show s.cursor.toNat + 1 + j = s.cursor.toNat + (j + 1) by omega]

/-- How the full blocks and the rest of a message grow when bytes are appended. -/
theorem hashedWords_append (v : Variant) (m d : List Byte) :
    hashedWords v (m ++ d) =
      compressBlocks v ((tailBytes v m ++ d).length / (cfg v).blockBytes) (tailBytes v m ++ d)
        (hashedWords v m) ∧
    tailBytes v (m ++ d) = (tailBytes v m ++ d).drop
      ((tailBytes v m ++ d).length / (cfg v).blockBytes * (cfg v).blockBytes) ∧
    (m ++ d).length % (cfg v).blockBytes = (tailBytes v m ++ d).length % (cfg v).blockBytes := by
  have hb := blockBytes_pos v
  have hm : fullBlocks v m * (cfg v).blockBytes ≤ m.length := Nat.div_mul_le_self _ _
  have htl : (tailBytes v m).length = m.length - fullBlocks v m * (cfg v).blockBytes := by
    simp [tailBytes]
  have hlen : (m ++ d).length =
      (tailBytes v m ++ d).length + (cfg v).blockBytes * fullBlocks v m := by
    rw [List.length_append, List.length_append, htl, Nat.mul_comm (cfg v).blockBytes]; omega
  have hdrop : (m ++ d).drop (fullBlocks v m * (cfg v).blockBytes) = tailBytes v m ++ d := by
    rw [List.drop_append_of_le_length hm]; rfl
  have hdiv : (m ++ d).length / (cfg v).blockBytes =
      fullBlocks v m + (tailBytes v m ++ d).length / (cfg v).blockBytes := by
    rw [hlen, Nat.add_mul_div_left _ _ hb, Nat.add_comm]
  refine ⟨?_, ?_, ?_⟩
  · rw [hashedWords, fullBlocks, hdiv, compressBlocks_add, hdrop,
      compressBlocks_append _ _ _ _ _ hm]
    rfl
  · rw [tailBytes, fullBlocks, hdiv, Nat.add_mul, ← List.drop_drop, hdrop]
  · rw [hlen, Nat.add_mul_mod_self_left]

/-- In ACTIVE the phase checks let the command through. -/
theorem acceptActive_active (k : State → State) {s : State} (hp : s.phase = .active) :
    acceptActive k s = k s := by
  unfold acceptActive; rw [hp]

/-- Outside FAULTED the phase checks let an INIT through. -/
theorem acceptInit_accepts (k : State → State) {s : State} (hp : s.phase ≠ .faulted) :
    acceptInit k s = k s := by
  rcases acceptInit_cases k s with ⟨h, _⟩ | ⟨_, h⟩
  · exact absurd h hp
  · exact h

/-- What an UPDATE that leaves the engine ACTIVE has done. -/
theorem update_active {d : List Byte} {s t : State} (h : exec (.update d) s = .next t)
    (ht : t.phase = .active) :
    s.phase = .active ∧ s.totalLength.toNat + d.length ≤ lmax s.variant ∧
    t = respond .ok []
      { absorbAll d s with totalLength := s.totalLength + BitVec.ofNat 128 d.length } := by
  rcases exec_cases _ s t h with ⟨hp, e⟩ | ⟨c, hni, hc, e⟩ | ⟨v, hv, hp', e⟩ |
    ⟨d, hv, hp', hl, e⟩ | ⟨hf, hp', e⟩ | ⟨hf, hp', e⟩
  · subst e; simp [hp] at ht
  · subst e; simp at ht
  · simp at hv
  · injection hv with hv; subst hv; exact ⟨hp', hl, e⟩
  · simp at hf
  · simp at hf

/-- A command on a free response channel: an illegal one goes to `illegalCommand`, a legal one to `exec`. -/
theorem step_command {s : State} {c : Command} {rest : List HostEvent}
    (hi : s.inbox = .command c :: rest) (hr : s.response = none) :
    (∃ why, decode c = .illegal why ∧ step s = .next (illegalCommand { s with inbox := rest })) ∨
    (∃ i, decode c = .command i ∧ step s = exec i { s with inbox := rest }) := by
  cases h : decode c with
  | illegal w => exact .inl ⟨w, rfl, by simp [step, fetch, hi, hr, present, h]⟩
  | command i => exact .inr ⟨i, rfl, by simp [step, fetch, hi, hr, present, h]⟩

/-- Every command places a response and leaves the host's coming events alone. -/
theorem exec_answers (i : Instr) (s : State) :
    ∃ t r, exec i s = .next t ∧ t.response = some r ∧ t.inbox = s.inbox := by
  obtain ⟨t, ht⟩ := exec_next i s
  rcases exec_cases i s t ht with ⟨_, h⟩ | ⟨c, _, hc, h⟩ | ⟨v, _, _, h⟩ | ⟨d, _, _, _, h⟩ |
    ⟨_, _, h⟩ | ⟨_, _, h⟩ <;>
    exact ⟨t, _, ht, by rw [h]; rfl,
      by rw [h]; simp [performInit, performFinalize, performFinalizeReset]⟩

/-- What a transaction is made of. -/
theorem transact_inv {c : Command} {s t : State} {r : Response} (h : transact c s = some (r, t)) :
    ∃ u, step (s.offer c) = .next u ∧ u.response = some r ∧ t = { u with response := none } := by
  unfold transact at h
  split at h
  · rename_i u hu
    split at h
    · rename_i r' hr
      simp at h; obtain ⟨rfl, rfl⟩ := h; exact ⟨u, hu, hr, rfl⟩
    · simp at h
  · simp at h
  · simp at h

/-- What an observation of one command more is made of. -/
theorem observe_cons {c : Command} {cs : List Command} {s t : State} {rs : List Response}
    (h : observe (c :: cs) s = some (rs, t)) :
    ∃ r u rs', transact c s = some (r, u) ∧ observe cs u = some (rs', t) ∧ rs = r :: rs' := by
  simp only [observe] at h
  split at h
  · rename_i r u hu
    split at h
    · rename_i rs' v hv
      simp at h; obtain ⟨rfl, rfl⟩ := h; exact ⟨r, u, rs', hu, hv, rfl⟩
    · simp at h
  · simp at h

end Sys2Proof.Machine
end

