-- ==== Sys2Proof/Laws/Words.lean ====
section
/-! SUPPORT. The big-endian conversions as arithmetic, and the fields of a command word. -/

namespace Sys2Proof.Machine

/-- The number that `beWord` reads, before it is cut to a width. -/
def beNumber (a : Nat) (bs : List Byte) : Nat := bs.foldl (fun acc b => acc * 256 + b.toNat) a

@[simp] theorem beNumber_nil (a : Nat) : beNumber a [] = a := rfl

theorem beNumber_cons (a : Nat) (b : Byte) (bs : List Byte) :
    beNumber a (b :: bs) = beNumber (a * 256 + b.toNat) bs := rfl

theorem beWord_eq (n : Nat) (bs : List Byte) : beWord n bs = BitVec.ofNat n (beNumber 0 bs) := rfl

theorem beNumber_start (bs : List Byte) : ∀ a, beNumber a bs = a * 256 ^ bs.length + beNumber 0 bs := by
  induction bs with
  | nil => intro a; simp
  | cons b bs ih =>
    intro a
    rw [beNumber_cons, beNumber_cons, ih, ih (0 * 256 + b.toNat), List.length_cons, pow_succ]
    ring

theorem beNumber_lt (bs : List Byte) : beNumber 0 bs < 256 ^ bs.length := by
  induction bs with
  | nil => simp
  | cons b bs ih =>
    rw [beNumber_cons, beNumber_start, List.length_cons, pow_succ]
    have := b.isLt
    have h2 : 0 * 256 + b.toNat ≤ 255 := by omega
    have := Nat.mul_le_mul_right (256 ^ bs.length) h2
    omega

theorem beNumber_beBytes (k : Nat) : ∀ x, beNumber 0 (beBytes k x) = x % 256 ^ k := by
  induction k with
  | zero => intro x; simp [beBytes, Nat.mod_one]
  | succ k ih =>
    intro x
    rw [beBytes, beNumber_cons, beNumber_start, ih, beBytes_length]
    simp only [BitVec.toNat_ofNat, zero_mul, zero_add]
    rw [show (2 : Nat) ^ 8 = 256 by norm_num, pow_succ, Nat.mod_mul, Nat.mul_comm]
    omega

/-- The k low bytes do not depend on what stands above them. -/
theorem beBytes_add (n k : Nat) (hk : k ≤ n) (x y : Nat) : beBytes k (y * 256 ^ n + x) = beBytes k x := by
  induction k with
  | zero => rfl
  | succ k ih =>
    rw [beBytes, beBytes, ih (by omega)]
    congr 1
    apply BitVec.eq_of_toNat_eq
    simp only [BitVec.toNat_ofNat]
    obtain ⟨j, rfl⟩ : ∃ j, n = k + 1 + j := ⟨n - (k + 1), by omega⟩
    have e : y * 256 ^ (k + 1 + j) = 256 ^ k * (256 * (y * 256 ^ j)) := by
      rw [pow_add, pow_succ]; ring
    rw [e, Nat.mul_add_div (by positivity), show (2 : Nat) ^ 8 = 256 by norm_num, Nat.mul_add_mod]

theorem beBytes_beNumber (bs : List Byte) : beBytes bs.length (beNumber 0 bs) = bs := by
  induction bs with
  | nil => rfl
  | cons b bs ih =>
    have hp : 0 < 256 ^ bs.length := by positivity
    rw [List.length_cons, beNumber_cons, beBytes, beNumber_start]
    congr 1
    · rw [Nat.mul_comm, Nat.mul_add_div hp, Nat.div_eq_of_lt (beNumber_lt bs)]
      simp
    · rw [beBytes_add _ _ (le_refl _), ih]

end Sys2Proof.Machine

namespace Sys2Proof

/-- Splitting a command into its fields and joining them gives the command back. -/
theorem join_split (c : Command) : c.split.join = c := by
  obtain ⟨w, p⟩ := c
  simp only [Command.split, Fields.join, Command.mk.injEq, and_true]
  apply BitVec.eq_of_getLsbD_eq
  intro i hi
  simp only [BitVec.getLsbD_append, BitVec.getLsbD_extractLsb']
  by_cases h1 : i < 4
  · simp [h1]
  · by_cases h2 : i - 4 < 3
    · simp [h1, h2]; congr 1; omega
    · simp [h1, h2, show i - 4 - 3 < 25 by omega]; congr 1; omega

/-- Joining fields to a command and splitting it gives the fields back. -/
theorem split_join (f : Fields) : f.join.split = f := by
  obtain ⟨o, v, r, p⟩ := f
  simp only [Command.split, Fields.join, Fields.mk.injEq, and_true]
  refine ⟨?_, ?_, ?_⟩ <;> apply BitVec.eq_of_getLsbD_eq <;> intro i hi <;>
    simp only [BitVec.getLsbD_append, BitVec.getLsbD_extractLsb']
  · simp [show i < 4 by omega]
  · have : ¬ 4 + i < 4 := by omega
    simp [hi, this]
  · have h1 : ¬ 7 + i < 4 := by omega
    have h2 : ¬ 7 + i - 4 < 3 := by omega
    simp only [hi, h1, h2, decide_true, Bool.true_and, if_false,
      show 7 + i - 4 - 3 = i by omega]

end Sys2Proof
end

