-- ==== Sys2Proof/Laws/PerInstr.lean ====
section
/-! SUPPORT. What holds of every instruction as syntax, one lemma per constructor. -/

namespace Sys2Proof.Laws.FieldsLegal

/-- The fields of the instruction break none of R80's clauses, and they are what R72 reads from its encoded command. -/
def Statement (i : Instr) : Prop := i.wellFormed = true ∧ (encode i).split = i.fields

theorem initSha224 : Statement .initSha224 := ⟨by decide, split_join _⟩
theorem initSha256 : Statement .initSha256 := ⟨by decide, split_join _⟩
theorem initSha384 : Statement .initSha384 := ⟨by decide, split_join _⟩
theorem initSha512 : Statement .initSha512 := ⟨by decide, split_join _⟩
theorem initSha512_224 : Statement .initSha512_224 := ⟨by decide, split_join _⟩
theorem initSha512_256 : Statement .initSha512_256 := ⟨by decide, split_join _⟩
theorem update (d : List Byte) : Statement (.update d) :=
  ⟨by simp [Instr.wellFormed, Instr.fields, Fields.wellFormed, Fields.opLegal, Fields.rsvLegal,
    Fields.initVarLegal, Fields.otherVarLegal, Fields.payloadLegal], split_join _⟩
theorem finalize : Statement .finalize := ⟨by decide, split_join _⟩
theorem finalizeReset : Statement .finalizeReset := ⟨by decide, split_join _⟩

end Sys2Proof.Laws.FieldsLegal
end

