-- ==== Sys2Proof/Laws/Schedule.lean ====
section
/-! SUPPORT. The message schedule word by word, and what a compression reads and writes in a C32 variant. -/

namespace Sys2Proof.Machine

/-- Extending a schedule keeps its words and adds each further one by the recurrence. -/
theorem extend_spec {n : Nat} (F : CoreFns n) (m : Nat) : ∀ w : List (BitVec n),
    (extend F m w).length = w.length + m ∧
    (∀ t, t < w.length → (extend F m w).getD t 0 = w.getD t 0) ∧
    ∀ t, w.length ≤ t → t < w.length + m →
      (extend F m w).getD t 0 = nextWord F ((extend F m w).take t) := by
  induction m with
  | zero => intro w; refine ⟨rfl, fun _ _ => rfl, ?_⟩; intro t h1 h2; omega
  | succ m ih =>
    intro w
    obtain ⟨a, b, c⟩ := ih (w ++ [nextWord F w])
    simp only [List.length_append, List.length_singleton] at a b c
    refine ⟨by rw [extend, a]; omega, ?_, ?_⟩
    · intro t ht
      rw [extend, b t (by omega)]
      simp [List.getD_eq_getElem?_getD, List.getElem?_append_left ht]
    · intro t h1 h2
      rw [extend]
      by_cases h : t = w.length
      · subst h
        rw [b _ (by omega)]
        have : (extend F m (w ++ [nextWord F w])).take w.length = w := by
          apply List.ext_getElem (by simp [a]; omega)
          intro i hi1 hi2
          have := b i (by omega)
          simp only [List.getElem_take]
          rw [List.getD_eq_getElem _ _ (by rw [a]; omega)] at this
          rw [this]
          simp [List.getD_eq_getElem?_getD, List.getElem?_append_left hi2,
            List.getElem?_eq_getElem hi2]
        rw [this]
        simp [List.getD_eq_getElem?_getD]
      · exact c t (by omega) (by omega)

/-- The recurrence on the first t words reads the words t-16, t-15, t-7 and t-2. -/
theorem nextWord_take {n : Nat} (F : CoreFns n) (w : List (BitVec n)) (t : Nat) (h : 16 ≤ t)
    (ht : t ≤ w.length) :
    nextWord F (w.take t) = w.getD (t - 16) 0 + F.smallSigma0 (w.getD (t - 15) 0) +
      w.getD (t - 7) 0 + F.smallSigma1 (w.getD (t - 2) 0) := by
  have k : ∀ j, j < t → (w.take t).getD j 0 = w.getD j 0 := by
    intro j hj; simp [List.getD_eq_getElem?_getD, hj]
  unfold nextWord
  rw [List.length_take, min_eq_left ht, k _ (by omega), k _ (by omega), k _ (by omega),
    k _ (by omega)]

/-- The schedule of a block on either core. -/
theorem schedule_spec {n : Nat} (F : CoreFns n) (blk : List Byte) (hk : 16 ≤ F.k.length) :
    (schedule F blk).length = F.k.length ∧
    (∀ t, t < 16 → (schedule F blk).getD t 0 = blockWord n F.wordBytes blk t) ∧
    ∀ t, 16 ≤ t → t < F.k.length →
      (schedule F blk).getD t 0 = nextWord F ((schedule F blk).take t) := by
  obtain ⟨a, b, c⟩ := extend_spec F (F.k.length - 16) (blockWords n F.wordBytes blk)
  rw [blockWords_length] at a b c
  refine ⟨by rw [schedule, a]; omega, ?_, ?_⟩
  · intro t ht; rw [schedule, b t ht]; simp [blockWords, List.getD_eq_getElem?_getD, ht]
  · intro t h1 h2; exact c t h1 (by omega)

/-- A C32 compression writes its words zero-extended (R21, R100). -/
theorem compressWith_c32_lt (v : Variant) (hv : (cfg v).core = .c32) (h : Vector Word64 8)
    (blk : List Byte) (i : Fin 8) : (compressWith v h blk)[i].toNat < 2 ^ 32 := by
  unfold compressWith
  simp only [hv]
  generalize compress32 _ _ = x
  have k : ∀ y : Word32, (BitVec.setWidth 64 y).toNat < 2 ^ 32 := by
    intro y; have := y.isLt; simp; omega
  fin_cases i <;> exact k _

/-- A C32 compression reads the low halves alone (R21, R100). -/
theorem compressWith_c32_congr (v : Variant) (hv : (cfg v).core = .c32) (h h' : Vector Word64 8)
    (blk : List Byte) (hh : ∀ i : Fin 8, h[i].setWidth 32 = h'[i].setWidth 32) :
    compressWith v h blk = compressWith v h' blk := by
  unfold compressWith
  simp only [hv]
  have : mapWords (BitVec.setWidth 32) h = mapWords (BitVec.setWidth 32) h' := by
    unfold mapWords
    have h0 := hh 0; have h1 := hh 1; have h2 := hh 2; have h3 := hh 3
    have h4 := hh 4; have h5 := hh 5; have h6 := hh 6; have h7 := hh 7
    simp only [Fin.getElem_fin] at *
    simp at h0 h1 h2 h3 h4 h5 h6 h7
    simp [*]
  rw [this]

theorem iv_c32_lt (v : Variant) : (cfg v).core = .c32 → ∀ i : Fin 8, (cfg v).iv[i].toNat < 2 ^ 32 := by
  cases v <;> decide

end Sys2Proof.Machine
end

