-- ==== Sys2Proof/Tests/Slice0.lean ====
section
/-! SUPPORT. Tests whose expected results stand in spec/, and one named witness per statement that has hypotheses. -/

namespace Sys2Proof.Tests

open Sys2Proof Sys2Proof.Machine

set_option maxRecDepth 100000
set_option Elab.async false

/-! ### WellFormed: an ill-formed term for each check, which that check alone refuses (30_encoding.md R80) -/

def badOp : Fields := ⟨5, 0, 0, []⟩
def badReserved : Fields := ⟨1, 0, 1, []⟩
def badVariant : Fields := ⟨1, 6, 0, []⟩
def badVarOnUpdate : Fields := ⟨2, 1, 0, []⟩
def badPayload : Fields := ⟨3, 0, 0, [0x61]⟩

theorem test_wellFormed_refuses_op : badOp.opLegal = false ∧ badOp.wellFormed = false ∧
    badOp.rsvLegal ∧ badOp.initVarLegal ∧ badOp.otherVarLegal ∧ badOp.payloadLegal := by decide
theorem test_wellFormed_refuses_reserved_bits :
    badReserved.rsvLegal = false ∧ badReserved.wellFormed = false ∧
    badReserved.opLegal ∧ badReserved.initVarLegal ∧ badReserved.otherVarLegal ∧
    badReserved.payloadLegal := by decide
theorem test_wellFormed_refuses_variant : badVariant.initVarLegal = false ∧ badVariant.wellFormed = false ∧
    badVariant.opLegal ∧ badVariant.rsvLegal ∧ badVariant.otherVarLegal ∧ badVariant.payloadLegal := by
  decide
theorem test_wellFormed_refuses_variant_on_update :
    badVarOnUpdate.otherVarLegal = false ∧ badVarOnUpdate.wellFormed = false ∧
    badVarOnUpdate.opLegal ∧ badVarOnUpdate.rsvLegal ∧ badVarOnUpdate.initVarLegal ∧
    badVarOnUpdate.payloadLegal := by decide
theorem test_wellFormed_refuses_payload : badPayload.payloadLegal = false ∧ badPayload.wellFormed = false ∧
    badPayload.opLegal ∧ badPayload.rsvLegal ∧ badPayload.initVarLegal ∧ badPayload.otherVarLegal := by
  decide

/-! ### Decoding: words written out bit by bit, RSV then VAR then OP (30_encoding.md R72, R73, R78) -/

theorem test_decode_init :
    decode ⟨0b0000000000000000000000000_000_0001, []⟩ = .command .initSha224 ∧
    decode ⟨0b0000000000000000000000000_001_0001, []⟩ = .command .initSha256 ∧
    decode ⟨0b0000000000000000000000000_010_0001, []⟩ = .command .initSha384 ∧
    decode ⟨0b0000000000000000000000000_011_0001, []⟩ = .command .initSha512 ∧
    decode ⟨0b0000000000000000000000000_100_0001, []⟩ = .command .initSha512_224 ∧
    decode ⟨0b0000000000000000000000000_101_0001, []⟩ = .command .initSha512_256 := by decide
theorem test_decode_update :
    decode ⟨0b0000000000000000000000000_000_0010, [0x61, 0x62]⟩ = .command (.update [0x61, 0x62]) := by
  decide
theorem test_decode_finalize :
    decode ⟨0b0000000000000000000000000_000_0011, []⟩ = .command .finalize := by decide
theorem test_decode_finalizeReset :
    decode ⟨0b0000000000000000000000000_000_0100, []⟩ = .command .finalizeReset := by decide

/-- The illegal rows of spec/95_test_vectors.md section 8.1. -/
theorem test_decode_illegal :
    decode ⟨0x00000061, []⟩ = .illegal .reservedVariant ∧
    decode ⟨0x00000071, []⟩ = .illegal .reservedVariant ∧
    decode ⟨0x00000011, [1, 2, 3]⟩ = .illegal .unexpectedPayload ∧
    decode ⟨0x00000012, [1, 2, 3]⟩ = .illegal .variantOnOtherOp ∧
    decode ⟨0x00000003, [1]⟩ = .illegal .unexpectedPayload ∧
    decode ⟨0x00000014, []⟩ = .illegal .variantOnOtherOp ∧
    decode ⟨0x00000000, []⟩ = .illegal .reservedOp ∧
    decode ⟨0x00000005, []⟩ = .illegal .reservedOp ∧
    decode ⟨0x0000000f, []⟩ = .illegal .reservedOp ∧
    decode ⟨0x00000080, []⟩ = .illegal .reservedBits ∧
    decode ⟨0x00000081, []⟩ = .illegal .reservedBits ∧
    decode ⟨0x80000002, []⟩ = .illegal .reservedBits ∧
    decode ⟨0xffffffff, []⟩ = .illegal .reservedBits := by decide

/-- The match values of spec/opcode_table.json, through the table's numbering of bits; more than 32 bits are no command. -/
theorem test_decodeTableWord :
    decodeTableWord 32 0x00000001 = some .initSha224 ∧ decodeTableWord 32 0x00000011 = some .initSha256 ∧
    decodeTableWord 32 0x00000021 = some .initSha384 ∧ decodeTableWord 32 0x00000031 = some .initSha512 ∧
    decodeTableWord 32 0x00000041 = some .initSha512_224 ∧
    decodeTableWord 32 0x00000051 = some .initSha512_256 ∧
    decodeTableWord 32 0x00000002 = some (.update []) ∧ decodeTableWord 32 0x00000003 = some .finalize ∧
    decodeTableWord 32 0x00000004 = some .finalizeReset ∧
    decodeTableWord 32 0x00000000 = none ∧ decodeTableWord 40 0x00000001 = none := by decide

/-- A placed word is the very next step's command. -/
theorem test_withFetchWord_runs_the_word :
    (match step (State.reset.withFetchWord 32 0x00000031) with
     | .next t    => t.variant == .sha512 && t.phase == .active
     | .fault _   => false
     | .refused _ => false) = true := by decide +kernel

/-! ### Assembler lines (30_encoding.md R81) -/

theorem test_assemble_program :
    assemble
      [['I', 'N', 'I', 'T', ' ', 'S', 'H', 'A', '-', '5', '1', '2', '/', '2', '5', '6'],
       [' ', ';', ' ', 'a'],
       ['U', 'P', 'D', 'A', 'T', 'E', ' ', Char.ofNat 34, 'a', '\\', 'x', '4', '2', Char.ofNat 34],
       ['U', 'P', 'D', 'A', 'T', 'E', ' ', '3', ' ', 'x', ' ', '0', 'x', '6', '1'],
       ['U', 'P', 'D', 'A', 'T', 'E', ' ', '0', 'x'],
       ['F', 'I', 'N', 'A', 'L', 'I', 'Z', 'E', ' ', ';', 'b']] =
      some [.initSha512_256, .update [0x61, 0x42], .update [0x61, 0x61, 0x61], .update [], .finalize] := by
  decide +kernel
theorem test_asm_refuses_lower_case : asmCommand ['i', 'n', 'i', 't', ' ', 'S', 'H', 'A', '-', '2', '2', '4'] = none := by
  decide +kernel

/-! ### Function vectors (95_test_vectors.md section 2) -/

theorem test_functions32 :
    smallSigma0_32 0x12345678 = 0xe7fce6ee ∧ smallSigma1_32 0x12345678 = 0xa1f78649 ∧
    bigSigma0_32 0x12345678 = 0x66146474 ∧ bigSigma1_32 0x12345678 = 0x3561abda ∧
    smallSigma0_32 0xffffffff = 0x1fffffff ∧ smallSigma1_32 0xffffffff = 0x003fffff ∧
    bigSigma0_32 0xffffffff = 0xffffffff ∧ bigSigma1_32 0x80000000 = 0x02100040 := by decide
theorem test_functions64 :
    smallSigma0_64 0x0123456789abcdef = 0x6f92c77c6c4f1aa1 ∧
    smallSigma1_64 0x0123456789abcdef = 0x70a3460dbbd4317a ∧
    bigSigma0_64 0x0123456789abcdef = 0xb7c57a100c7ec1ab ∧
    bigSigma1_64 0x0123456789abcdef = 0x7703112333475567 ∧
    smallSigma0_64 0xffffffffffffffff = 0x01ffffffffffffff ∧
    smallSigma1_64 0xffffffffffffffff = 0x03ffffffffffffff ∧
    bigSigma0_64 1 = 0x0000001042000000 ∧ bigSigma1_64 1 = 0x0004400000800000 := by decide
theorem test_ch_maj :
    ch (0xff00ff00 : Word32) 0x12345678 0x9abcdef0 = 0x12bc56f0 ∧
    maj (0xff00ff00 : Word32) 0x12345678 0x9abcdef0 = 0x9a34de70 ∧
    ch (0xffffffff00000000 : Word64) 0x0123456789abcdef 0xfedcba9876543210 = 0x0123456776543210 ∧
    maj (0xffffffff00000000 : Word64) 0x0123456789abcdef 0xfedcba9876543210 = 0xffffffff00000000 := by
  decide

/-! ### Constants, from their origins as the spec names them (R128, R158, R211) -/

/-- The first n primes below 420, by trial division. -/
def primes (n : Nat) : List Nat :=
  ((List.range 420).filter fun p => decide (2 ≤ p) && (List.range p).all fun d => decide (d < 2) || p % d != 0).take n

/-- `x` is the first 64 bits of the fractional part of the k-th root of p. -/
def isRootFraction (k p : Nat) (x : Word64) : Bool :=
  (List.range 24).any fun r =>
    decide (r ^ k ≤ p) && decide (p < (r + 1) ^ k) &&
    decide ((r * 2 ^ 64 + x.toNat) ^ k ≤ p * 2 ^ (64 * k)) &&
    decide (p * 2 ^ (64 * k) < (r * 2 ^ 64 + x.toNat + 1) ^ k)

theorem test_k64_from_cube_roots :
    k64.length = 80 ∧ ((primes 80).zip k64).all fun px => isRootFraction 3 px.1 px.2 := by decide +kernel
theorem test_k32_is_the_high_half_of_k64 :
    k32 = (k64.take 64).map fun x => x.extractLsb' 32 32 := by decide +kernel
theorem test_iv512_iv384_from_square_roots :
    ((primes 16).zip (iv512.toList ++ iv384.toList)).all fun px => isRootFraction 2 px.1 px.2 := by
  decide +kernel
theorem test_iv256_and_iv224_are_halves :
    iv256.toList = iv512.toList.map (fun x => (x.extractLsb' 32 32).setWidth 64) ∧
    iv224.toList = iv384.toList.map (fun x => (x.extractLsb' 0 32).setWidth 64) := by decide +kernel

/-! ### Compression vectors (R135 (b), R138, R165 (b), R168, R217) -/

def abc : List Byte := [0x61, 0x62, 0x63]

/-- The padded block of "abc" in the 32-bit core (R138). -/
def abcBlock32 : List Byte := abc ++ [0x80] ++ List.replicate 52 0 ++ (List.replicate 7 0 ++ [0x18])

/-- The padded block of "abc" in the 64-bit core: 108 zero bytes and the 16-byte length field after the terminator, 128 bytes as
R150 and R181 have it. R168 says 116 zero bytes, which would make 136; DEDUCED, log entry 23. -/
def abcBlock64 : List Byte := abc ++ [0x80] ++ List.replicate 108 0 ++ (List.replicate 15 0 ++ [0x18])

theorem test_compress32_zero :
    (compress32 (Vector.replicate 8 0) (List.replicate 64 0)).toList =
      [0x7ca51614, 0x425c3ba8, 0xce54dd2f, 0xc2020ae7, 0xb6e574d1, 0x98136d0f, 0xae7e26cc, 0xbf0be7a6] := by
  decide +kernel
theorem test_compress64_zero :
    (compress64 (Vector.replicate 8 0) (List.replicate 128 0)).toList =
      [0xad3a5da838ebf830, 0x5d7142ff85fcbedb, 0x7fa8bf86d6f7ca99, 0x1c6b15b039d70bbf,
       0x29f6515289923518, 0x6fd7101d5f2e8f3a, 0x1c358d2476531450, 0x568c0d99d756dc3c] := by
  decide +kernel
theorem test_schedule32_abc :
    ((schedule core32 abcBlock32).drop 16).take 4 = [0x61626380, 0x000f0000, 0x7da86405, 0x600003c6] ∧
    (schedule core32 abcBlock32).drop 60 = [0xa43fcf15, 0x668b2ff8, 0xeeaba2cc, 0x12b1edeb] := by
  decide +kernel
theorem test_schedule64_abc :
    ((schedule core64 abcBlock64).drop 16).take 2 = [0x6162638000000000, 0x00030000000000c0] ∧
    (schedule core64 abcBlock64).drop 79 = [0x92aeeed1a7bcf7d2] := by decide +kernel
theorem test_round32_abc :
    runRounds core32 (loadWorking (mapWords (BitVec.setWidth 32) iv256))
      ((schedule core32 abcBlock32).take 1) =
      ⟨0x5d6aebcd, 0x6a09e667, 0xbb67ae85, 0x3c6ef372, 0xfa2a4622, 0x510e527f, 0x9b05688c, 0x1f83d9ab⟩ := by
  decide +kernel
theorem test_round64_abc :
    runRounds core64 (loadWorking iv512) ((schedule core64 abcBlock64).take 1) =
      ⟨0xf6afceb8bcfcddf5, 0x6a09e667f3bcc908, 0xbb67ae8584caa73b, 0x3c6ef372fe94f82b,
       0x58cb02347ab51f91, 0x510e527fade682d1, 0x9b05688c2b3e6c1f, 0x1f83d9abfb41bd6b⟩ := by
  decide +kernel

/-- The IV of SHA-512/224 from its generation function (R217): the digest of the text "SHA-512/224". -/
theorem test_iv512_224_generated :
    compress64 (iv512.map fun x => x ^^^ 0xa5a5a5a5a5a5a5a5)
      ([0x53, 0x48, 0x41, 0x2d, 0x35, 0x31, 0x32, 0x2f, 0x32, 0x32, 0x34, 0x80] ++
        List.replicate 115 0 ++ [0x58]) = iv512_224 := by decide +kernel
/-- The IV of SHA-512/256 from its generation function (R217). -/
theorem test_iv512_256_generated :
    compress64 (iv512.map fun x => x ^^^ 0xa5a5a5a5a5a5a5a5)
      ([0x53, 0x48, 0x41, 0x2d, 0x35, 0x31, 0x32, 0x2f, 0x32, 0x35, 0x36, 0x80] ++
        List.replicate 115 0 ++ [0x58]) = iv512_256 := by decide +kernel

/-! ### Small states -/

/-- The engine right after INIT, with its response taken. -/
def started (v : Variant) : State := { performInit v State.reset with response := none }

/-- An engine that has absorbed a message, with the response taken. -/
def holding (v : Variant) (m : List Byte) : State :=
  { absorbAll m (started v) with totalLength := BitVec.ofNat 128 m.length }

/-- An engine in a phase, with a cause. -/
def inPhase (p : Phase) (c : Cause) : State := { started .sha256 with phase := p, faultCause := c }

/-- An engine whose count is n. -/
def counting (v : Variant) (n : Nat) : State := { started v with totalLength := BitVec.ofNat 128 n }

/-- The state an instruction gives. -/
def next (i : Instr) (s : State) : State :=
  match exec i s with
  | .next t    => t
  | .fault _   => s
  | .refused _ => s

/-- A digest as the number its hex digits write. -/
def number (bs : List Byte) : Nat := bs.foldl (fun a b => a * 256 + b.toNat) 0

/-- The status and the digest's length and value, as the response carries them. -/
def answer (i : Instr) (s : State) : Option (Status × Nat × Nat) :=
  (next i s).response.map fun r => (r.status, r.data.length, number r.data)

/-- What a response says and where it leaves the engine. -/
def outcome (i : Instr) (s : State) : Option (Status × Nat) × Phase × Cause :=
  ((next i s).response.map fun r => (r.status, r.data.length), (next i s).phase, (next i s).faultCause)

def hello : List Byte := [0x48, 0x65, 0x6c, 0x6c, 0x6f, 0x2c, 0x20, 0x77, 0x6f, 0x72, 0x6c, 0x64, 0x21]

/-! ### INIT (R212, R213) -/

theorem test_init_sha256_row :
    let t := next .initSha256 State.reset
    t.h.toList = [0x6a09e667, 0xbb67ae85, 0x3c6ef372, 0xa54ff53a, 0x510e527f, 0x9b05688c, 0x1f83d9ab, 0x5be0cd19] ∧
    t.totalLength = 0 ∧ t.cursor = 0 ∧ t.buf.toList = List.replicate 128 0 ∧ t.phase = .active ∧
    t.variant = .sha256 ∧ t.response = some ⟨.ok, []⟩ := by decide +kernel
/-- Each INIT abandons a message in progress and selects its own variant (R213). -/
theorem test_init_abandons_the_message :
    let s := holding .sha224 abc
    (next .initSha224 s).cursor = 0 ∧ (next .initSha384 s).variant = .sha384 ∧
    (next .initSha512 s).totalLength = 0 ∧ (next .initSha512_224 s).variant = .sha512_224 ∧
    (next .initSha512_256 s).buf.toList = List.replicate 128 0 ∧
    (next .initSha512_224 s).h.toList.head? = some 0x8c3d37c819544da2 ∧
    (next .initSha512_256 s).h.toList.getLast? = some 0x0eb72ddc81c52ca2 := by decide +kernel

/-! ### UPDATE (95_test_vectors.md section 5, R110) -/

theorem test_update_abc :
    let t := next (.update abc) (started .sha256)
    t.cursor = 3 ∧ t.totalLength = 3 ∧ t.h = iv256 ∧ bufRead 0 3 t.buf = abc := by decide +kernel
/-- The payload byte that completes a block compresses it, and the next byte starts the buffer again (P6 step 5). -/
theorem test_update_across_the_block_boundary :
    let t := next (.update [0x61, 0x61]) (holding .sha256 (List.replicate 63 0x61))
    t.cursor = 1 ∧ t.totalLength = 65 ∧ bufRead 0 1 t.buf = [0x61] ∧
    t.h.toList = [0xdf5bb81c, 0xe81e0626, 0xfb45a894, 0x4fd40f31, 0xb25e6816, 0xd6d499c1, 0xab904929, 0x00635e66] := by
  decide +kernel

/-! ### FINALIZE and FINALIZE_RESET (R195, R196; 95_test_vectors.md sections 1.1, 6 and 9) -/

theorem test_finalize_hello_sha256 :
    answer .finalize (holding .sha256 hello) =
      some (.ok, 32, 0x315f5bdb76d078c43b8ac0064e4a0164612b1fce77c869345bfc94c75894edd3) := by decide +kernel
/-- Program P3's last step: two blocks of padding in the 64-bit core. -/
theorem test_finalize_two_blocks :
    answer .finalize (holding .sha512_256 (List.replicate 112 0x61)) =
      some (.ok, 32, 0x9216b5303edb66504570bee90e48ea5beaa5e9fe9f760bbd3e0460559fc005f6) := by decide +kernel
/-- Program P2's fourth step. -/
theorem test_finalizeReset_hello_sha224 :
    answer .finalizeReset (holding .sha224 hello) =
      some (.ok, 28, 0x8552d8b7a7dc5476cb9e25dee69a8091290764b7f2a64fe6e78e9568) ∧
    { next .finalizeReset (holding .sha224 hello) with response := none } = started .sha224 := by
  decide +kernel
theorem test_finalizeReset_hello_sha512_224 :
    answer .finalizeReset (holding .sha512_224 hello) =
      some (.ok, 28, 0x32620068b859669b45b31008e08b7384649ad2ca3f5163a3a71e5745) := by decide +kernel

/-! ### The digest as a function of the message, on the source's vectors of section 1.1 -/

theorem test_sha384_hello : number (sha2 .sha384 hello) =
    0x55bc556b0d2fe0fce582ba5fe07baafff035653638c7ac0d5494c2a64c0bea1cc57331c7c12a45cdbca7f4c34a089eeb := by
  decide +kernel
theorem test_sha512_hello : number (sha2 .sha512 hello) =
    0xc1527cd893c124773d811911970c8fe6e857d6df5dc9226bd8a160614c0cd963a4ddea2b94bb7d36021ef9d865d5cea294a82dd49a0bb269f51f6e7a57f79421 := by
  decide +kernel
theorem test_sha512_256_hello : number (sha2 .sha512_256 hello) =
    0x330c723f25267587db0b9f493463e017011239169cb57a6db216c63774367115 := by decide +kernel

/-! ### Padding layouts (95_test_vectors.md section 3) -/

def letters (n : Nat) : List Byte := List.replicate n 0x61
def zeros (n : Nat) : List Byte := List.replicate n 0

theorem test_pad_c32 :
    paddedBlocks (holding .sha256 []) = [[0x80] ++ zeros 63] ∧
    paddedBlocks (holding .sha256 (letters 55)) = [letters 55 ++ [0x80] ++ zeros 6 ++ [0x01, 0xb8]] ∧
    paddedBlocks (holding .sha256 (letters 56)) =
      [letters 56 ++ [0x80] ++ zeros 7, zeros 62 ++ [0x01, 0xc0]] ∧
    paddedBlocks (holding .sha256 (letters 63)) =
      [letters 63 ++ [0x80], zeros 62 ++ [0x01, 0xf8]] := by decide +kernel
theorem test_pad_c64 :
    paddedBlocks (holding .sha512 (letters 111)) = [letters 111 ++ [0x80] ++ zeros 14 ++ [0x03, 0x78]] ∧
    paddedBlocks (holding .sha512 (letters 112)) =
      [letters 112 ++ [0x80] ++ zeros 15, zeros 126 ++ [0x03, 0x80]] ∧
    paddedBlocks (holding .sha512 (letters 127)) =
      [letters 127 ++ [0x80], zeros 126 ++ [0x03, 0xf8]] := by decide +kernel

/-! ### Phase by command outcomes (95_test_vectors.md section 8.2) -/

theorem test_unconfigured_rows :
    outcome (.update [0x61]) State.reset = (some (.notConfigured, 0), .faulted, .notConfigured) ∧
    outcome .finalize State.reset = (some (.notConfigured, 0), .faulted, .notConfigured) ∧
    outcome .finalizeReset State.reset = (some (.notConfigured, 0), .faulted, .notConfigured) ∧
    (illegalCommand State.reset).faultCause = .illegalCommand := by decide +kernel
theorem test_consumed_rows :
    let s := inPhase .consumed .none
    outcome .initSha224 s = (some (.ok, 0), .active, .none) ∧
    outcome (.update [0x61]) s = (some (.useAfterFinalize, 0), .faulted, .useAfterFinalize) ∧
    outcome .finalize s = (some (.useAfterFinalize, 0), .faulted, .useAfterFinalize) ∧
    outcome .finalizeReset s = (some (.useAfterFinalize, 0), .faulted, .useAfterFinalize) ∧
    (illegalCommand s).faultCause = .illegalCommand := by decide +kernel
theorem test_faulted_rows :
    let s := inPhase .faulted .notConfigured
    outcome .initSha256 s = (some (.engineFaulted, 0), .faulted, .notConfigured) ∧
    outcome (.update []) s = (some (.engineFaulted, 0), .faulted, .notConfigured) ∧
    outcome .finalize s = (some (.engineFaulted, 0), .faulted, .notConfigured) ∧
    outcome .finalizeReset s = (some (.engineFaulted, 0), .faulted, .notConfigured) ∧
    illegalCommand s = engineFaulted s := by decide +kernel
/-- LMAX itself is accepted and one byte more is not, in both cores (R101, section 5). -/
theorem test_update_limit :
    outcome (.update [0x61]) (counting .sha256 0x1ffffffffffffffe) = (some (.ok, 0), .active, .none) ∧
    outcome (.update [0x61]) (counting .sha256 0x1fffffffffffffff) =
      (some (.lengthOverflow, 0), .faulted, .lengthOverflow) ∧
    outcome (.update [0x61]) (counting .sha512 (2 ^ 125 - 2)) = (some (.ok, 0), .active, .none) ∧
    outcome (.update [0x61, 0x61]) (counting .sha512 (2 ^ 125 - 2)) =
      (some (.lengthOverflow, 0), .faulted, .lengthOverflow) := by decide +kernel

/-- The codes of R30, R31, R74 and R240. -/
theorem test_codes :
    (Phase.unconfigured.code, Phase.active.code, Phase.consumed.code, Phase.faulted.code) = (0, 1, 2, 3) ∧
    (Cause.none.code, Cause.illegalCommand.code, Cause.notConfigured.code, Cause.useAfterFinalize.code,
      Cause.lengthOverflow.code) = (0, 1, 2, 3, 4) ∧
    (Status.ok.code, Status.engineFaulted.code) = (0, 5) ∧
    (∀ c : Cause, c.status.code = c.code) ∧
    allVariants.map variantCode = [0, 1, 2, 3, 4, 5] := by
  refine ⟨by decide, by decide, by decide, ?_, by decide⟩
  intro c; cases c <;> decide

/-! ### Witnesses: for every statement with hypotheses, a state and operands that meet them; each clause has its own, at
the boundary of its range where it has one -/

def cmd (w : Word32) (d : List Byte) : Command := ⟨w, d⟩

/-- A state with events to come. -/
def facing (s : State) (es : List HostEvent) : State := { s with inbox := es }

/-- An illegal command of each clause (a) to (e) of R80, at the edge of the clause's range, in a phase that is not FAULTED. -/
theorem witness_IllegalCommandsAreTheFiveClauses :
    [cmd 0 [], cmd 5 [], cmd 15 [], cmd 0x80 [], cmd 0x80000002 [], cmd 0x61 [], cmd 0x71 [],
      cmd 0x12 [], cmd 0x74 [], cmd 0x51 [1], cmd 3 [1]].all (fun c =>
        match decode c with
        | .illegal _ =>
          match step (facing State.reset [.command c]) with
          | .next t    => t.response == some ⟨.illegalCommand, []⟩ && t.phase == .faulted
          | .fault _   => false
          | .refused _ => false
        | .command _ => false) = true ∧
    (facing State.reset []).response = none ∧ State.reset.phase ≠ .faulted := by decide +kernel

theorem witness_StepRunsTheDecodedCommand :
    ∃ (s : State) (c : Command) (rest : List HostEvent) (i : Instr),
      s.inbox = .command c :: rest ∧ s.response = none ∧ decode c = .command i :=
  ⟨facing State.reset [.command (cmd 0x11 []), .reset], cmd 0x11 [], [.reset], .initSha256, rfl, rfl, by decide⟩

theorem witness_HandshakeSteps :
    (∃ s : State, s.inbox = []) ∧
    (∃ (s : State) (rest : List HostEvent), s.inbox = .takeResponse :: rest) ∧
    (∃ (s : State) (c : Command) (rest : List HostEvent) (r : Response),
      s.inbox = .command c :: rest ∧ s.response = some r) :=
  ⟨⟨State.reset, rfl⟩, ⟨facing State.reset [.takeResponse], [], rfl⟩,
    ⟨facing (performInit .sha224 State.reset) [.command (cmd 2 [])], cmd 2 [], [], ⟨.ok, []⟩, rfl, rfl⟩⟩

/-- A command presented too early, let run and cut by a reset. -/
theorem witness_StepStopsOnlyOnABrokenHandshake :
    (∃ (s : State) (r : Refusal) (c : Command), s.inbox = [.command c] ∧ step s = .refused r) ∧
    (∃ (s : State) (r : Refusal) (c : Command), s.inbox = [.commandCutByReset c] ∧ step s = .refused r) :=
  ⟨⟨facing (performInit .sha224 State.reset) [.command (cmd 2 [])], .responseNotTaken, cmd 2 [], rfl, rfl⟩,
    ⟨facing (performInit .sha224 State.reset) [.commandCutByReset (cmd 2 [])], .responseNotTaken, cmd 2 [], rfl, rfl⟩⟩

theorem witness_ResetLeavesUnconfigured :
    ∃ (s : State) (rest : List HostEvent), s.inbox = .reset :: rest :=
  ⟨facing (inPhase .faulted .lengthOverflow) [.reset], [], rfl⟩

theorem witness_ResetAbandonsTheCommand :
    ∃ (s t : State) (c : Command) (rest : List HostEvent), s.response = none ∧
      step { s with inbox := .commandCutByReset c :: rest } = .next t :=
  ⟨holding .sha256 abc, _, cmd 3 [], [], rfl, rfl⟩

/-- Every phase, with an INIT and with each other command. -/
theorem witness_CommandAcceptanceByPhase :
    (∃ s : State, s.phase = .faulted) ∧
    (∃ s : State, s.phase = .unconfigured ∧ ∀ v, Instr.finalize ≠ initOf v) ∧
    (∃ s : State, s.phase = .consumed ∧ ∀ v, Instr.finalizeReset ≠ initOf v) ∧
    (∃ s : State, s.phase ≠ .faulted ∧ ∃ v, Instr.initSha512_256 = initOf v) ∧
    (∃ (s : State) (d : List Byte), s.phase = .active ∧ Instr.update abc = .update d) :=
  ⟨⟨inPhase .faulted .illegalCommand, rfl⟩, ⟨State.reset, rfl, by simp⟩,
    ⟨inPhase .consumed .none, rfl, by simp⟩, ⟨State.reset, by decide, .sha512_256, rfl⟩,
    ⟨started .sha256, abc, rfl, rfl⟩⟩

/-- Each of the fault conditions is met by some command, and two at once by the illegal word in UNCONFIGURED. -/
theorem witness_FirstFaultConditionIsReported :
    let s := facing State.reset [.command (cmd 0x00000005 [])]
    let u := facing (counting .sha224 (2 ^ 61 - 1)) [.command (cmd 2 [0x61])]
    (∃ c rest, s.inbox = .command c :: rest ∧ s.response = none ∧ s.phase = .unconfigured ∧
      ∃ why, decode c = .illegal why) ∧
    (∃ c rest, u.inbox = .command c :: rest ∧ u.response = none ∧ u.phase = .active ∧
      decode c = .command (.update [0x61]) ∧ lmax u.variant < u.totalLength.toNat + 1) :=
  ⟨⟨cmd 5 [], [], rfl, rfl, rfl, .reservedOp, by decide⟩, ⟨cmd 2 [0x61], [], rfl, rfl, rfl, by decide, by decide⟩⟩

/-- A faulting command from a phase that is not FAULTED, and one from FAULTED. -/
theorem witness_FaultsArePreciseAndSticky :
    (∃ (s t : State) (c : Command) (rest : List HostEvent) (r : Response),
      s.inbox = .command c :: rest ∧ s.response = none ∧ step s = .next t ∧ t.response = some r ∧
      r.status ≠ .ok ∧ s.phase ≠ .faulted) ∧
    (∃ (s t : State) (c : Command) (rest : List HostEvent) (r : Response),
      s.inbox = .command c :: rest ∧ s.response = none ∧ step s = .next t ∧ t.response = some r ∧
      r.status ≠ .ok ∧ s.phase = .faulted) :=
  ⟨⟨facing State.reset [.command (cmd 3 [])], _, cmd 3 [], [], ⟨.notConfigured, []⟩, rfl, rfl, rfl, rfl,
      by decide, by decide⟩,
    ⟨facing (inPhase .faulted .notConfigured) [.command (cmd 0x11 [])], _, cmd 0x11 [], [],
      ⟨.engineFaulted, []⟩, rfl, rfl, rfl, rfl, by decide, rfl⟩⟩

/-- A step from FAULTED that stays, and the two kinds of reset that leave it. -/
theorem witness_OnlyResetLeavesFaulted :
    ∀ es ∈ [[HostEvent.command (cmd 0x11 [])], [.reset], [.commandCutByReset (cmd 3 [])]],
      ∃ t : State, (facing (inPhase .faulted .notConfigured) es).phase = .faulted ∧
        step (facing (inPhase .faulted .notConfigured) es) = .next t := by
  intro es h
  fin_cases h <;> exact ⟨_, rfl, rfl⟩

theorem witness_FaultCauseIsWrittenByTheFirstFaultOnly :
    (∃ s t : State, step s = .next t ∧ t.faultCause ≠ s.faultCause ∧ t.phase = .faulted) ∧
    (∃ s t : State, s.inbox = [.reset] ∧ step s = .next t ∧ t.faultCause ≠ s.faultCause) ∧
    (∃ (s t : State) (c : Command), s.inbox = [.commandCutByReset c] ∧ step s = .next t ∧
      t.faultCause ≠ s.faultCause) :=
  ⟨⟨facing State.reset [.command (cmd 3 [])], _, rfl, by decide, rfl⟩,
    ⟨facing (inPhase .faulted .notConfigured) [.reset], _, rfl, rfl, by decide⟩,
    ⟨facing (inPhase .faulted .notConfigured) [.commandCutByReset (cmd 3 [])], _, cmd 3 [], rfl, rfl, by decide⟩⟩

/-- A command for each way of entering a phase. -/
theorem witness_PhaseIsEnteredAsTheTableSays :
    (∃ t : State, exec .initSha384 State.reset = .next t ∧ t.phase ≠ State.reset.phase) ∧
    (∃ t : State, exec .finalize (started .sha256) = .next t ∧ t.phase ≠ (started .sha256).phase) ∧
    (∃ t : State, exec .finalizeReset State.reset = .next t ∧ t.phase ≠ State.reset.phase) :=
  ⟨⟨_, rfl, by decide⟩, ⟨performFinalize (started .sha256), rfl, by simp [performFinalize, started, performInit]⟩,
    ⟨_, rfl, by decide⟩⟩

theorem witness_OnlyFinalizeAnswersData :
    (∃ (s t : State) (r : Response), exec .finalize s = .next t ∧ t.response = some r ∧ r.status = .ok) ∧
    (∃ (s t : State) (r : Response), exec (.update abc) s = .next t ∧ t.response = some r ∧ r.status = .ok) :=
  ⟨⟨started .sha256, performFinalize (started .sha256), ⟨.ok, _⟩, rfl, rfl, rfl⟩,
    ⟨started .sha256, next (.update abc) (started .sha256), ⟨.ok, []⟩, rfl, by decide +kernel, rfl⟩⟩

theorem witness_FaultedAnswersEveryCommandAlike : ∃ s : State, s.phase = .faulted :=
  ⟨inPhase .faulted .lengthOverflow, rfl⟩

theorem witness_NothingSucceedsBeforeInit :
    ∃ (cs : List Command) (s t : State) (rs : List Response), s.phase = .unconfigured ∧ cs ≠ [] ∧
      (∀ c ∈ cs, ∀ v, decode c ≠ .command (initOf v)) ∧ observe cs s = some (rs, t) :=
  ⟨[cmd 2 abc, cmd 0xffffffff []], State.reset, _, _, rfl, by simp,
    by intro c hc v; fin_cases hc <;> cases v <;> decide, rfl⟩

/-- A run that faults and one that does not. -/
theorem witness_RunFaultsExactlyWhenItEndsFaulted :
    (∃ (s t : State) (rs : List Response), s.phase ≠ .faulted ∧
      observe [cmd 0x11 [], cmd 0x12 []] s = some (rs, t) ∧ runFaulted rs = true) ∧
    (∃ (s t : State) (rs : List Response), s.phase ≠ .faulted ∧
      observe [cmd 0x11 [], cmd 2 abc] s = some (rs, t) ∧ runFaulted rs = false) :=
  ⟨⟨State.reset, _, _, by decide, rfl, rfl⟩, ⟨State.reset, _, _, by decide, rfl, rfl⟩⟩

/-- The three phases in which an INIT is accepted. -/
theorem witness_InitStartsAnEmptyMessage :
    State.reset.phase ≠ .faulted ∧ (holding .sha512 abc).phase ≠ .faulted ∧
    (inPhase .consumed .none).phase ≠ .faulted := by decide +kernel

theorem witness_InitReadsNoMessageRegister : (holding .sha512 abc).phase ≠ .faulted := by decide +kernel

theorem witness_InitAbsorbsTheEmptyMessage : (inPhase .consumed .none).phase ≠ .faulted := by decide

theorem witness_OnlyInitWritesVariant :
    (∃ s t : State, exec .initSha384 s = .next t ∧ t.variant ≠ s.variant) ∧
    (∃ s t : State, exec (.update abc) s = .next t ∧ t.variant = s.variant) :=
  ⟨⟨State.reset, _, rfl, by decide⟩, ⟨State.reset, _, rfl, by decide⟩⟩

theorem witness_LmaxIsTheLargestFittingLength :
    (cfg .sha224).core = .c32 ∧ (cfg .sha512_256).core = .c64 ∧
    8 * (2 ^ 61 - 1) < 2 ^ (8 * (cfg .sha256).lenBytes) ∧ ¬ 8 * 2 ^ 61 < 2 ^ (8 * (cfg .sha256).lenBytes) := by
  decide

/-- The cursor below the last index, and at the last index, in both cores. -/
theorem witness_AbsorbByteFillsTheBlock :
    (∃ s : State, s.cursor.toNat < (cfg s.variant).blockBytes ∧ s.cursor.toNat + 1 = (cfg s.variant).blockBytes ∧
      (cfg s.variant).core = .c32) ∧
    (∃ s : State, s.cursor.toNat < (cfg s.variant).blockBytes ∧ s.cursor.toNat + 1 = (cfg s.variant).blockBytes ∧
      (cfg s.variant).core = .c64) ∧
    (∃ s : State, s.cursor.toNat < (cfg s.variant).blockBytes ∧ s.cursor.toNat + 1 ≠ (cfg s.variant).blockBytes) :=
  ⟨⟨{ started .sha256 with cursor := 63 }, by decide⟩, ⟨{ started .sha384 with cursor := 127 }, by decide⟩,
    ⟨{ started .sha384 with cursor := 126 }, by decide⟩⟩

/-- A sum of LMAX and a sum of LMAX + 1. -/
theorem witness_UpdateLengthCheck :
    (∃ (d : List Byte) (s : State), s.phase = .active ∧ s.totalLength.toNat + d.length = lmax s.variant + 1) ∧
    (∃ (d : List Byte) (s : State), s.phase = .active ∧ s.totalLength.toNat + d.length = lmax s.variant) :=
  ⟨⟨[0x61, 0x61], counting .sha512 (2 ^ 125 - 2), by decide⟩, ⟨[0x61], counting .sha512 (2 ^ 125 - 2), by decide⟩⟩

theorem witness_UpdateAbsorbsItsPayload :
    ∃ (d : List Byte) (s : State), s.phase = .active ∧ s.totalLength.toNat + d.length ≤ lmax s.variant :=
  ⟨[0x61], counting .sha256 (2 ^ 61 - 2), by decide⟩

theorem witness_EmptyUpdateChangesNothing :
    ∃ s : State, s.phase = .active ∧ s.totalLength.toNat ≤ lmax s.variant :=
  ⟨counting .sha224 (2 ^ 61 - 1), by decide⟩

/-- A payload that fills the block exactly, and one that stays below it. -/
theorem witness_UpdateCompressesEveryFullBlock :
    (∃ (d : List Byte) (s : State), s.phase = .active ∧ s.cursor.toNat < (cfg s.variant).blockBytes ∧
      s.totalLength.toNat + d.length ≤ lmax s.variant ∧
      s.cursor.toNat + d.length = (cfg s.variant).blockBytes) ∧
    (∃ (d : List Byte) (s : State), s.phase = .active ∧ s.cursor.toNat < (cfg s.variant).blockBytes ∧
      s.totalLength.toNat + d.length ≤ lmax s.variant ∧
      s.cursor.toNat + d.length < (cfg s.variant).blockBytes) :=
  ⟨⟨letters 61, holding .sha256 abc, by decide +kernel⟩, ⟨letters 60, holding .sha256 abc, by decide +kernel⟩⟩

/-- An UPDATE of three bytes at cursor 62, of which one lands at index 0: index 1 is a byte it leaves alone. -/
theorem witness_UpdateFrame :
    ∃ (d : List Byte) (s t : State) (i : Fin 128), exec (.update d) s = .next t ∧ t.phase = .active ∧
      s.cursor.toNat < (cfg s.variant).blockBytes ∧
      ∀ j, j < d.length → (s.cursor.toNat + j) % (cfg s.variant).blockBytes ≠ i.val :=
  ⟨abc, { started .sha256 with cursor := 62 }, next (.update abc) { started .sha256 with cursor := 62 }, 1, rfl,
    by decide +kernel, by decide, by decide⟩

theorem witness_ChunkingDoesNotMatter :
    ∃ (ps : List (List Byte)) (s t : State), ps ≠ [] ∧ runInstrs (updateStar ps) s = some t ∧
      t.phase = .active :=
  ⟨[abc, [], [0x64]], started .sha256,
    next (.update [0x64]) (next (.update []) (next (.update abc) (started .sha256))), by simp, rfl,
    by decide +kernel⟩

/-- A cursor in the middle of a block and a payload of more than two blocks. -/
theorem witness_BatchedAbsorptionIsEquivalent :
    ∃ (d : List Byte) (s : State), s.cursor.toNat < (cfg s.variant).blockBytes ∧
      2 * (cfg s.variant).blockBytes < s.cursor.toNat + d.length :=
  ⟨letters 126, holding .sha224 abc, by decide +kernel⟩

/-- An engine that has absorbed "abc". -/
theorem witness_absorbed_abc : Absorbed abc (holding .sha256 abc) ∧ Absorbed abc (holding .sha512_224 abc) := by
  decide +kernel

theorem witness_UpdateAppendsToTheMessage :
    ∃ (m d : List Byte) (s : State), Absorbed m s ∧ (m ++ d).length ≤ lmax s.variant :=
  ⟨abc, [0x64], holding .sha256 abc, witness_absorbed_abc.1, by decide +kernel⟩

/-- The two sides of the bound of step 2, in both cores: cursors 55, 56 and 63, and 111, 112 and 127. -/
theorem witness_PadBuildsOneOrTwoBlocks :
    ∀ vcb ∈ [(Variant.sha256, 55, true), (.sha256, 56, false), (.sha256, 63, false), (.sha384, 111, true),
      (.sha384, 112, false), (.sha384, 127, false)],
      let s : State := { started vcb.1 with cursor := BitVec.ofNat 7 vcb.2.1 }
      s.cursor.toNat < (cfg s.variant).blockBytes ∧
      (decide (s.cursor.toNat + 1 ≤ (cfg s.variant).blockBytes - (cfg s.variant).lenBytes)) = vcb.2.2 := by
  decide +kernel

theorem witness_PadZerosIsLeast :
    padZeros .sha256 55 = 0 ∧ padZeros .sha256 56 = 63 ∧ 62 < padZeros .sha256 56 ∧ padZeros .sha384 111 = 0 := by
  decide

theorem witness_CompressedBytesAreThePaddedMessage :
    ∃ (m : List Byte) (s t : State), Absorbed [] s ∧ exec (.update m) s = .next t ∧ t.phase = .active :=
  ⟨abc, started .sha256, next (.update abc) (started .sha256), by decide +kernel, rfl, by decide +kernel⟩

theorem witness_FinalizePadsAndAnswers : (holding .sha256 abc).phase = .active := by decide +kernel

theorem witness_FinalizeResetAnswersAndRestores : (holding .sha384 abc).phase = .active := by decide +kernel

theorem witness_FinalizeResetEqualsInit : (holding .sha512_256 abc).phase = .active := by decide +kernel

/-- Bytes that FINALIZE leaves: index 64 of a C32 buffer, and index 2 before cursor 3 where one block is enough; and a
FINALIZE_RESET that is performed. -/
theorem witness_FinalizeFrame :
    (∃ s t : State, exec .finalize s = .next t ∧ t.phase = .consumed ∧ s.cursor.toNat = 3 ∧
      s.cursor.toNat < (cfg s.variant).blockBytes ∧ (cfg s.variant).blockBytes ≤ (64 : Fin 128).val ∧
      s.cursor.toNat + 1 ≤ (cfg s.variant).blockBytes - (cfg s.variant).lenBytes ∧
      (2 : Fin 128).val < s.cursor.toNat) ∧
    (∃ s t : State, exec .finalizeReset s = .next t ∧ t.phase = .active) :=
  ⟨⟨{ started .sha256 with cursor := 3 }, performFinalize { started .sha256 with cursor := 3 }, rfl, rfl,
      by decide, by decide, by decide, by decide, by decide⟩,
    ⟨started .sha256, performFinalizeReset (started .sha256), rfl,
      by simp [performFinalizeReset, started, performInit]⟩⟩

theorem witness_FinalizeAnswersTheDigest : ∃ (m : List Byte) (s : State), Absorbed m s :=
  ⟨abc, holding .sha256 abc, witness_absorbed_abc.1⟩

theorem witness_FinalizeResetAnswersTheDigest : ∃ (m : List Byte) (s : State), Absorbed m s :=
  ⟨abc, holding .sha512_224 abc, witness_absorbed_abc.2⟩

theorem witness_HashAnswersTheDigest :
    ∃ (v : Variant) (d : List Byte) (s : State), s.phase ≠ .faulted ∧ d.length ≤ lmax v :=
  ⟨.sha224, abc, inPhase .consumed .none, by decide⟩

theorem witness_RunAnswersTheDigestOfTheWholeMessage :
    ∃ (v : Variant) (ps : List (List Byte)) (s : State), s.phase ≠ .faulted ∧ ps.flatten.length ≤ lmax v :=
  ⟨.sha512, [abc, [], abc], State.reset, by decide⟩

/-- Stale bytes after the cursor that differ, with the same state words; and upper halves that differ in a C32 variant. -/
theorem witness_FinalizeReadsNoStaleBits :
    let s := holding .sha256 abc
    let buf := s.buf.set 3 0xff
    let h := s.h.set 0 (s.h[0] + 0x100000000)
    s.phase = .active ∧ s.cursor.toNat < (cfg s.variant).blockBytes ∧
    bufRead 0 s.cursor.toNat buf = bufRead 0 s.cursor.toNat s.buf ∧ buf ≠ s.buf ∧ h ≠ s.h ∧
    (cfg s.variant).core = .c32 ∧ ∀ i : Fin 8, h[i].setWidth 32 = s.h[i].setWidth 32 := by decide +kernel

theorem witness_BigEndianRoundTrip : ([0x12, 0x34] : List Byte).length = 2 := by decide

theorem witness_VariantRecordAndCoresAgree :
    (cfg .sha256).core = .c32 ∧ (cfg .sha512).core = .c64 := by decide

/-- Rotation of a 32-bit word by 7: a bit that does not wrap and one that does. -/
theorem witness_RotrRotatesBits : 0 < 7 ∧ 7 < 32 ∧ (0 + 7) % 32 = 7 ∧ (31 + 7) % 32 = 6 := by decide

theorem witness_ChChoosesAndMajVotes : 31 < 32 ∧ 63 < 64 := by decide

/-- The first and the last index of each range of the schedules. -/
theorem witness_ScheduleFollowsTheRecurrence : 15 < 16 ∧ 16 ≤ 16 ∧ 16 ≤ 63 ∧ 63 < 64 ∧ 79 < 80 := by decide

theorem witness_CompressBlockDispatch :
    (cfg (started .sha224).variant).core = .c32 ∧ (cfg (started .sha384).variant).core = .c64 := by decide

/-- The invariant and a step, in a state whose message registers hold values. -/
theorem witness_StepKeepsTheInvariant :
    ∃ s t : State, Inv s ∧ Configured s ∧ step s = .next t :=
  ⟨facing (holding .sha256 abc) [.command (cmd 2 abc)],
    next (.update abc) (holding .sha256 abc), by decide +kernel, by decide +kernel, rfl⟩

end Sys2Proof.Tests
end

section
/-! PROOFS. 00_scope.md: the longest message whose bit count fits the length field (R10). -/

namespace Sys2Proof.Machine

/-- L, the size of the length field, is fixed by the core (R7). -/
theorem lenBytes_eq_of_core (v : Variant) :
    (cfg v).lenBytes = if (cfg v).core = .c32 then 8 else 16 := by cases v <;> rfl

theorem lenBytes_pos (v : Variant) : 0 < (cfg v).lenBytes := by
  rw [lenBytes_eq_of_core]
  split <;> decide

/-- The bit counts that fit the length field are eight times as many as the byte counts up to LMAX: the field is at least
three bits wide, so the factor 8 of the bit count comes out of its range. -/
theorem two_pow_lenBits (v : Variant) : 2 ^ (8 * (cfg v).lenBytes) = 8 * (lmax v + 1) := by
  have hL := lenBytes_pos v
  calc 2 ^ (8 * (cfg v).lenBytes) = 2 ^ (3 + (8 * (cfg v).lenBytes - 3)) := by congr 1; omega
    _ = 8 * 2 ^ (8 * (cfg v).lenBytes - 3) := Nat.pow_add 2 3 _
    _ = 8 * (lmax v + 1) := by rw [lmax, Nat.sub_add_cancel Nat.one_le_two_pow]

theorem bitCount_lt_iff_le_lmax (v : Variant) (n : Nat) :
    8 * n < 2 ^ (8 * (cfg v).lenBytes) ↔ n ≤ lmax v := by
  rw [two_pow_lenBits]
  omega

theorem lmax_of_c32 {v : Variant} (h : (cfg v).core = .c32) : lmax v = 2 ^ 61 - 1 := by
  simp [lmax, lenBytes_eq_of_core, h]

theorem lmax_of_c64 {v : Variant} (h : (cfg v).core = .c64) : lmax v = 2 ^ 125 - 1 := by
  simp [lmax, lenBytes_eq_of_core, h]

/-- Settles O24: the length field's range is eight times LMAX + 1, and the core fixes the field's size. -/
theorem lmaxIsTheLargestFittingLength : Obligations.LmaxIsTheLargestFittingLength :=
  ⟨bitCount_lt_iff_le_lmax, fun _ => lmax_of_c32, fun _ => lmax_of_c64⟩

end Sys2Proof.Machine
end

section
/-! PROOFS. 41_update.md: the block compression (R100), the byte step (R104), the length check (R101), the blocks an UPDATE
compresses (R106), the empty UPDATE (R107) and chunking invariance (R109). -/

namespace Sys2Proof.Machine

/-! ### CompressBlock (R100) -/

theorem mapWords_getElem {m n : Nat} (f : BitVec m → BitVec n) (h : Vector (BitVec m) 8) (i : Fin 8) :
    (mapWords f h)[i] = f h[i] := by
  fin_cases i <;> rfl

/-- B, the size of a block, is fixed by the core (R7). -/
theorem blockBytes_eq_of_core (v : Variant) :
    (cfg v).blockBytes = if (cfg v).core = .c32 then 64 else 128 := by cases v <;> rfl

theorem compressWith_of_c32 {v : Variant} (hv : (cfg v).core = .c32) (h : Vector Word64 8) (blk : List Byte) :
    compressWith v h blk =
      mapWords (BitVec.setWidth 64) (compress32 (mapWords (BitVec.setWidth 32) h) blk) := by
  simp only [compressWith, hv]

theorem compressWith_of_c64 {v : Variant} (hv : (cfg v).core = .c64) (h : Vector Word64 8) (blk : List Byte) :
    compressWith v h blk = compress64 h blk := by
  simp only [compressWith, hv]

/-- Settles O54: the core fixes both the compression and the number of buffer bytes it reads. -/
theorem compressBlockDispatch : Obligations.CompressBlockDispatch := by
  intro s
  refine ⟨rfl, fun hv i => ?_, fun hv => ?_⟩
  · have hb : (cfg s.variant).blockBytes = 64 := by simp [blockBytes_eq_of_core, hv]
    rw [compressBlock, hb, compressWith_of_c32 hv, mapWords_getElem]
  · have hb : (cfg s.variant).blockBytes = 128 := by simp [blockBytes_eq_of_core, hv]
    rw [compressBlock, hb, compressWith_of_c64 hv]

/-! ### AbsorbByte (R104) -/

theorem absorbByte_cursor_lt (d : Byte) (s : State) (hc : s.cursor.toNat < (cfg s.variant).blockBytes) :
    (absorbByte d s).cursor.toNat < (cfg s.variant).blockBytes := by
  rw [absorbByte_cursor d s hc]
  exact Nat.mod_lt _ (blockBytes_pos _)

/-- Settles O25: the two cases of the byte step, by whether the byte fills the block. -/
theorem absorbByteFillsTheBlock : Obligations.AbsorbByteFillsTheBlock := by
  intro d s hc
  refine ⟨fun hfull => ?_, fun hshort => ⟨?_, ?_⟩, absorbByte_cursor_lt d s hc⟩
  · rw [absorbByte, if_pos hfull]; rfl
  · rw [absorbByte, if_neg hshort]; rfl
  · exact (absorbByte_short d s (by omega)).2

/-! ### UPDATE in ACTIVE (R101, R107) -/

theorem exec_update_overflow {d : List Byte} {s : State} (hp : s.phase = .active)
    (hl : lmax s.variant < s.totalLength.toNat + d.length) :
    exec (.update d) s = .next (raiseFault .lengthOverflow s) := by
  rw [exec_update, acceptActive_active _ hp, performUpdate, if_pos hl]

/-- The converse of `update_active`. -/
theorem exec_update_within {d : List Byte} {s : State} (hp : s.phase = .active)
    (hl : s.totalLength.toNat + d.length ≤ lmax s.variant) :
    exec (.update d) s = .next (respond .ok []
      { absorbAll d s with totalLength := s.totalLength + BitVec.ofNat 128 d.length }) := by
  rw [exec_update, acceptActive_active _ hp, performUpdate, if_neg (by omega)]

/-- Settles O26: the exact sum decides between the fault and the answer OK. -/
theorem updateLengthCheck : Obligations.UpdateLengthCheck := fun _ _ hp =>
  ⟨fun hl => exec_update_overflow hp hl, fun hl => ⟨_, exec_update_within hp hl, rfl⟩⟩

/-- Settles O28: no byte is absorbed and the counter grows by 0. -/
theorem emptyUpdateChangesNothing : Obligations.EmptyUpdateChangesNothing := by
  intro s hp hl
  have hzero : s.totalLength + BitVec.ofNat 128 0 = s.totalLength := BitVec.add_zero _
  rw [exec_update_within (d := []) hp hl, List.length_nil, hzero]
  rfl

/-! ### The blocks an UPDATE compresses (R106) -/

theorem absorbedBlocks_cons_full (d : Byte) (ds : List Byte) (s : State)
    (h : s.cursor.toNat + 1 = (cfg s.variant).blockBytes) :
    absorbedBlocks (d :: ds) s =
      (bufRead 0 s.cursor.toNat s.buf ++ [d]) :: absorbedBlocks ds (absorbByte d s) := by
  rw [absorbedBlocks, if_pos h, ← h, storeByte, bufRead_set s.cursor.isLt]
  rfl

theorem absorbedBlocks_cons_short (d : Byte) (ds : List Byte) (s : State)
    (h : s.cursor.toNat + 1 ≠ (cfg s.variant).blockBytes) :
    absorbedBlocks (d :: ds) s = absorbedBlocks ds (absorbByte d s) := by
  rw [absorbedBlocks, if_neg h, List.nil_append]

/-- Each block compressed is B bytes long. -/
theorem length_of_mem_absorbedBlocks (ds : List Byte) : ∀ s : State,
    ∀ blk ∈ absorbedBlocks ds s, blk.length = (cfg s.variant).blockBytes := by
  induction ds with
  | nil => simp [absorbedBlocks]
  | cons d ds ih =>
    intro s blk hblk
    have ih := ih (absorbByte d s) blk
    rw [absorbByte_variant] at ih
    by_cases h : s.cursor.toNat + 1 = (cfg s.variant).blockBytes
    · rw [absorbedBlocks_cons_full d ds s h, List.mem_cons] at hblk
      rcases hblk with rfl | hblk
      · simp only [List.length_append, bufRead_length, List.length_singleton]; omega
      · exact ih hblk
    · exact ih (absorbedBlocks_cons_short d ds s h ▸ hblk)

/-- H takes the blocks compressed one after the other. -/
theorem absorbAll_h (ds : List Byte) : ∀ s : State, s.cursor.toNat < (cfg s.variant).blockBytes →
    (absorbAll ds s).h = (absorbedBlocks ds s).foldl (compressWith s.variant) s.h := by
  induction ds with
  | nil => intros; rfl
  | cons d ds ih =>
    intro s hc
    have ih := ih (absorbByte d s) (by rw [absorbByte_variant]; exact absorbByte_cursor_lt d s hc)
    rw [absorbByte_variant] at ih
    by_cases h : s.cursor.toNat + 1 = (cfg s.variant).blockBytes
    · rw [absorbAll, ih, absorbedBlocks_cons_full d ds s h, (absorbByte_full d s h).1, List.foldl_cons]
    · rw [absorbAll, ih, absorbedBlocks_cons_short d ds s h, (absorbByte_short d s (by omega)).1]

/-- No byte is lost: the blocks compressed, followed by what is buffered afterwards, are what was buffered before,
followed by the payload. -/
theorem absorbedBlocks_flatten_append_buffered (ds : List Byte) : ∀ s : State,
    s.cursor.toNat < (cfg s.variant).blockBytes →
    (absorbedBlocks ds s).flatten ++ bufRead 0 (absorbAll ds s).cursor.toNat (absorbAll ds s).buf =
      bufRead 0 s.cursor.toNat s.buf ++ ds := by
  induction ds with
  | nil => intro s _; simp [absorbedBlocks, absorbAll]
  | cons d ds ih =>
    intro s hc
    have ih := ih (absorbByte d s) (by rw [absorbByte_variant]; exact absorbByte_cursor_lt d s hc)
    by_cases h : s.cursor.toNat + 1 = (cfg s.variant).blockBytes
    · have hempty : bufRead 0 (absorbByte d s).cursor.toNat (absorbByte d s).buf = [] := by
        simp [(absorbByte_full d s h).2, bufRead]
      rw [absorbAll, absorbedBlocks_cons_full d ds s h, List.flatten_cons, List.append_assoc, ih, hempty,
        List.append_assoc, List.nil_append, List.singleton_append]
    · have hmore : bufRead 0 (absorbByte d s).cursor.toNat (absorbByte d s).buf =
          bufRead 0 s.cursor.toNat s.buf ++ [d] := by
        rw [(absorbByte_short d s (by omega)).2, absorbByte_buf, bufRead_set s.cursor.isLt]
      rw [absorbAll, absorbedBlocks_cons_short d ds s h, ih, hmore, List.append_assoc, List.singleton_append]

theorem length_buffered_append (ds : List Byte) (s : State) :
    (bufRead 0 s.cursor.toNat s.buf ++ ds).length = s.cursor.toNat + ds.length := by
  have := s.cursor.isLt
  rw [List.length_append, bufRead_length]
  omega

theorem absorbedBlocks_flatten (ds : List Byte) (s : State) (hc : s.cursor.toNat < (cfg s.variant).blockBytes) :
    (absorbedBlocks ds s).flatten = (bufRead 0 s.cursor.toNat s.buf ++ ds).take
      ((s.cursor.toNat + ds.length) / (cfg s.variant).blockBytes * (cfg s.variant).blockBytes) := by
  obtain ⟨-, -, hrest⟩ := absorbAll_spec ds s hc
  have hall := absorbedBlocks_flatten_append_buffered ds s hc
  rw [hrest, length_buffered_append] at hall
  exact List.append_cancel_right (hall.trans (List.take_append_drop _ _).symm)

/-- The number of blocks: their bytes are the full blocks of the stream, and each is B bytes long. -/
theorem absorbedBlocks_length (ds : List Byte) (s : State) (hc : s.cursor.toNat < (cfg s.variant).blockBytes) :
    (absorbedBlocks ds s).length = (s.cursor.toNat + ds.length) / (cfg s.variant).blockBytes := by
  apply Nat.eq_of_mul_eq_mul_right (blockBytes_pos s.variant)
  calc (absorbedBlocks ds s).length * (cfg s.variant).blockBytes
      = (absorbedBlocks ds s).flatten.length := by
        rw [List.length_flatten, List.map_congr_left (length_of_mem_absorbedBlocks ds s)]
        simp
    _ = (s.cursor.toNat + ds.length) / (cfg s.variant).blockBytes * (cfg s.variant).blockBytes := by
        rw [absorbedBlocks_flatten ds s hc, List.length_take, length_buffered_append]
        exact Nat.min_eq_left (Nat.div_mul_le_self _ _)

/-- Settles O29: no byte of the stream is lost, and the cursor says where its last full block ends. -/
theorem updateCompressesEveryFullBlock : Obligations.UpdateCompressesEveryFullBlock := by
  intro d s hp hc hl b all
  obtain ⟨-, hcursor, hrest⟩ := absorbAll_spec d s hc
  rw [length_buffered_append] at hcursor hrest
  have hh := absorbAll_h d s hc
  refine ⟨_, exec_update_within hp hl, absorbedBlocks_length d s hc, absorbedBlocks_flatten d s hc,
    hh, hcursor, hrest, fun hlt => ?_⟩
  have hnone : absorbedBlocks d s = [] := by
    rw [← List.length_eq_zero_iff, absorbedBlocks_length d s hc, Nat.div_eq_of_lt hlt]
  rw [hnone] at hh
  exact hh

/-! ### Chunking invariance (R109) -/

theorem runInstrs_cons_eq_some {i : Instr} {is : List Instr} {s t : State}
    (h : runInstrs (i :: is) s = some t) : ∃ u, exec i s = .next u ∧ runInstrs is u = some t := by
  obtain ⟨u, hu⟩ := exec_next i s
  simp only [runInstrs, hu] at h
  exact ⟨u, hu, h⟩

/-- Two UPDATEs are one UPDATE of both payloads: absorbing reads neither the counter nor the response that the first
has written, and the exact sum of the second check is that of the one check. -/
theorem exec_update_append {xs ys : List Byte} {s u t : State} (hu : exec (.update xs) s = .next u)
    (ht : exec (.update ys) u = .next t) (hactive : t.phase = .active) :
    exec (.update (xs ++ ys)) s = .next t := by
  obtain ⟨hup, huy, rfl⟩ := update_active ht hactive
  obtain ⟨hsp, hsx, rfl⟩ := update_active hu hup
  have hsum := totalLength_add s.variant s.totalLength xs.length hsx
  have hlen : s.totalLength.toNat + (xs ++ ys).length ≤ lmax s.variant := by
    simp only [respond_totalLength, respond_variant, absorbAll_variant, hsum] at huy
    rw [List.length_append]
    omega
  rw [exec_update_within hsp hlen, absorbAll_append]
  simp only [respond, absorbAll_irrel, List.length_append, BitVec.ofNat_add, BitVec.add_assoc]

/-- Settles O31, by induction on the payloads: the UPDATEs after the first are one UPDATE already. -/
theorem chunkingDoesNotMatter : Obligations.ChunkingDoesNotMatter := by
  intro ps
  induction ps with
  | nil => intro s t hne; exact absurd rfl hne
  | cons d ps ih =>
    intro s t _ hrun hactive
    obtain ⟨u, hu, hrest⟩ := runInstrs_cons_eq_some hrun
    rw [List.flatten_cons]
    cases ps with
    | nil =>
      obtain rfl : u = t := Option.some.inj hrest
      rwa [List.flatten_nil, List.append_nil]
    | cons e ps => exact exec_update_append hu (ih u t (by simp) hrest hactive) hactive

end Sys2Proof.Machine
end

section
/-! PROOFS. 42_compress32.md, with 43_compress64.md where a rule has its counterpart there: the round functions Ch and Maj
(R127, R157) and the message schedule (R124, R154). -/

namespace Sys2Proof.Machine

/-! ### Ch and Maj (R127, R157) -/

theorem ch_getLsbD {n : Nat} (x y z : BitVec n) {i : Nat} (hi : i < n) :
    (ch x y z).getLsbD i = if x.getLsbD i then y.getLsbD i else z.getLsbD i := by
  simp only [ch, BitVec.getLsbD_xor, BitVec.getLsbD_and, BitVec.getLsbD_not, hi]
  cases x.getLsbD i <;> simp

theorem maj_getLsbD {n : Nat} (x y z : BitVec n) (i : Nat) :
    (maj x y z).getLsbD i =
      decide (2 ≤ (x.getLsbD i).toNat + (y.getLsbD i).toNat + (z.getLsbD i).toNat) := by
  simp only [maj, BitVec.getLsbD_xor, BitVec.getLsbD_and]
  generalize x.getLsbD i = a, y.getLsbD i = b, z.getLsbD i = c
  revert a b c
  decide

/-- Settles O51: each bit of the result is a function of the three operand bits at its place. -/
theorem chChoosesAndMajVotes : Obligations.ChChoosesAndMajVotes :=
  fun _ x y z i hi => ⟨ch_getLsbD x y z hi, maj_getLsbD x y z i⟩

/-! ### The message schedule (R124, R154) -/

/-- The recurrence on either core, read from the finished schedule: it has all the earlier words by then. -/
theorem schedule_recurrence {n : Nat} (F : CoreFns n) (blk : List Byte) (hk : 16 ≤ F.k.length) {t : Nat}
    (h : 16 ≤ t) (ht : t < F.k.length) :
    (schedule F blk).getD t 0 =
      (schedule F blk).getD (t - 16) 0 + F.smallSigma0 ((schedule F blk).getD (t - 15) 0) +
        (schedule F blk).getD (t - 7) 0 + F.smallSigma1 ((schedule F blk).getD (t - 2) 0) := by
  obtain ⟨hlen, -, hnext⟩ := schedule_spec F blk hk
  rw [hnext t h ht, nextWord_take F _ t h (by omega)]

/-! One round constant per round (R131, R161). -/

theorem core32_k_length : core32.k.length = 64 := rfl
theorem core64_k_length : core64.k.length = 80 := rfl

/-- Settles O52: both schedules are the one schedule of `CoreFns`, on 64 and on 80 rounds. -/
theorem scheduleFollowsTheRecurrence : Obligations.ScheduleFollowsTheRecurrence := by
  intro blk
  have hk32 : 16 ≤ core32.k.length := by rw [core32_k_length]; decide
  have hk64 : 16 ≤ core64.k.length := by rw [core64_k_length]; decide
  obtain ⟨hlen32, hwords32, -⟩ := schedule_spec core32 blk hk32
  obtain ⟨hlen64, hwords64, -⟩ := schedule_spec core64 blk hk64
  exact ⟨⟨hlen32.trans core32_k_length, hwords32, fun _ => schedule_recurrence core32 blk hk32⟩,
    ⟨hlen64.trans core64_k_length, hwords64, fun _ => schedule_recurrence core64 blk hk64⟩⟩

end Sys2Proof.Machine
end

section
/-! PROOFS. 44_finalize.md: the blocks of Pad() as the padding of R189, and FINALIZE_RESET (R196). -/

namespace Sys2Proof.Machine

/-! ### The number of zero bytes (R189) -/

/-- The number of zero bytes is fixed by where the message ends in its last block. -/
theorem padZeros_mod (v : Variant) (n : Nat) : padZeros v (n % (cfg v).blockBytes) = padZeros v n := by
  rw [padZeros, padZeros, Nat.add_assoc, Nat.mod_add_mod, ← Nat.add_assoc]

/-- A count below B that completes the last block is the number of zero bytes. -/
theorem padZeros_eq_of_completes {v : Variant} {n k : Nat} (hk : k < (cfg v).blockBytes)
    (hfull : (n + 1 + k + (cfg v).lenBytes) % (cfg v).blockBytes = 0) : padZeros v n = k := by
  simp only [padZeros, blockBytes_eq_of_core, lenBytes_eq_of_core] at *
  split_ifs at * <;> omega

/-- Where the length field fits, the zeros complete the cursor's own block. -/
theorem padZeros_of_fits {v : Variant} {c : Nat} (hfit : c + 1 ≤ (cfg v).blockBytes - (cfg v).lenBytes) :
    padZeros v c = (cfg v).blockBytes - (cfg v).lenBytes - (c + 1) := by
  apply padZeros_eq_of_completes (by omega)
  rw [show c + 1 + _ + (cfg v).lenBytes = (cfg v).blockBytes by omega, Nat.mod_self]

/-- Where it does not, they complete that block and the one after it. -/
theorem padZeros_of_overflows {v : Variant} {c : Nat} (hc : c < (cfg v).blockBytes)
    (hover : (cfg v).blockBytes - (cfg v).lenBytes < c + 1) :
    padZeros v c = (cfg v).blockBytes - (c + 1) + ((cfg v).blockBytes - (cfg v).lenBytes) := by
  have hl := lenBytes_le v
  apply padZeros_eq_of_completes (by omega)
  rw [show c + 1 + _ + (cfg v).lenBytes = 2 * (cfg v).blockBytes by omega, Nat.mul_mod_left]

/-! ### The bytes of Pad() (R181, R189) -/

/-- The blocks of Pad(), joined: one or two of them, they are the buffered bytes with R189's padding behind them. -/
theorem paddedBlocks_flatten (s : State) (hc : s.cursor.toNat < (cfg s.variant).blockBytes) :
    (paddedBlocks s).flatten =
      bufRead 0 s.cursor.toNat s.buf ++ [0x80] ++ List.replicate (padZeros s.variant s.cursor.toNat) 0 ++
        lengthField s := by
  cases hover : padOverflows s with
  | false =>
    have hfit : s.cursor.toNat + 1 ≤ (cfg s.variant).blockBytes - (cfg s.variant).lenBytes := by
      rw [← Nat.not_lt, ← padOverflows_iff, hover]
      exact Bool.false_ne_true
    obtain ⟨-, hblock⟩ := pad_fits s hover
    rw [padZeros_of_fits hfit, paddedBlocks, hover, hblock]
    simp
  | true =>
    obtain ⟨-, hfirst, hsecond⟩ := pad_overflows s hover hc
    rw [padZeros_of_overflows hc ((padOverflows_iff s).mp hover), paddedBlocks, if_pos hover, hfirst, hsecond,
      List.replicate_add]
    simp only [padSecondBlock, List.cons_append, List.nil_append, List.flatten_cons, List.flatten_nil, List.append_nil,
      List.append_assoc]

/-- Settles O37: what the UPDATE has not compressed is in the buffer, where Pad() takes it up, and the cursor there is
the message's length modulo B. -/
theorem compressedBytesAreThePaddedMessage : Obligations.CompressedBytesAreThePaddedMessage := by
  intro m s t hs hexec hactive
  obtain ⟨-, -, hlength, hcursor, -, hbuffered⟩ := hs
  obtain ⟨-, hlimit, rfl⟩ := update_active hexec hactive
  have hc : s.cursor.toNat < (cfg s.variant).blockBytes := hcursor ▸ Nat.mod_lt _ (blockBytes_pos _)
  have hempty : bufRead 0 s.cursor.toNat s.buf = [] := hbuffered.trans List.drop_nil
  have hcount : (s.totalLength + BitVec.ofNat 128 m.length).toNat = m.length := by
    rw [totalLength_add s.variant _ _ hlimit, hlength, List.length_nil, Nat.zero_add]
  obtain ⟨-, hend, -⟩ := absorbAll_spec m s hc
  have hall := absorbedBlocks_flatten_append_buffered m s hc
  rw [hempty, List.nil_append] at hend hall
  have hclt : (absorbAll m s).cursor.toNat < (cfg s.variant).blockBytes :=
    hend ▸ Nat.mod_lt _ (blockBytes_pos _)
  rw [List.flatten_append, paddedBlocks_flatten _ (by simpa using hclt)]
  simp only [respond_cursor, respond_buf, respond_variant, respond_totalLength, absorbAll_variant, lengthField,
    hcount]
  rw [← List.append_assoc, ← List.append_assoc, ← List.append_assoc, hall, hend, padZeros_mod, paddedMessage]

/-! ### FINALIZE_RESET (R196) -/

/-- The restore overwrites every register that Pad() writes. -/
theorem startMessage_pad (s : State) : startMessage (pad s) = startMessage s := by
  simp [startMessage]

/-- The digest is taken from H as Pad() leaves it. -/
theorem assembleDigest_pad (s : State) : assembleDigest (pad s) = digestOf s.variant (pad s).h := by
  rw [assembleDigest, pad_variant]

/-- Settles O39: the digest is an operand of the response, and the restore is that of the state before Pad(). -/
theorem finalizeResetAnswersAndRestores : Obligations.FinalizeResetAnswersAndRestores := by
  intro s hp
  rw [exec_finalizeReset, acceptActive_active _ hp, performFinalizeReset, assembleDigest_pad, startMessage_pad]
  rfl

end Sys2Proof.Machine
end

section
/-! PROOFS. 45_variant.md: digest assembly, the words each variant takes and the length of its digest (R215, R216). -/

namespace Sys2Proof.Machine

/-! ### Cutting big-endian words at a byte -/

/-- The first a of a + b bytes are those of the number without its b low bytes. -/
theorem take_beBytes_add (a b x : Nat) : (beBytes (a + b) x).take a = beBytes a (x / 256 ^ b) := by
  induction a with
  | zero => rfl
  | succ a ih =>
    rw [Nat.add_right_comm, beBytes, List.take_succ_cons, ih, beBytes, Nat.div_div_eq_div_mul, ← pow_add,
      Nat.add_comm b a]

/-- "The first 4 bytes" of a 64-bit word are its bits 63 to 32 (R52, R216). -/
theorem take_four_wordBytes (x : Word64) : (wordBytes x).take 4 = wordBytes (x.extractLsb' 32 32) := by
  have hhigh : (x.extractLsb' 32 32).toNat = x.toNat / 256 ^ 4 := by
    have := x.isLt
    rw [BitVec.extractLsb'_toNat, Nat.shiftRight_eq_div_pow]
    omega
  rw [wordBytes, wordBytes, hhigh]
  exact take_beBytes_add 4 4 x.toNat

section
variable {ι : Type} (w : ι → List Byte) {m : Nat} (hw : ∀ i, (w i).length = m)
include hw

theorem length_flatten_words (is : List ι) : (is.map w).flatten.length = is.length * m := by
  simp [List.length_flatten, Function.comp_def, hw]

/-- The first k * m + r bytes of words of m bytes each: k of the words, then r bytes of those behind them. -/
theorem take_flatten_words (k r : Nat) : ∀ is : List ι, (is.map w).flatten.take (k * m + r) =
    ((is.take k).map w).flatten ++ ((is.drop k).map w).flatten.take r := by
  induction k with
  | zero => intro is; simp
  | succ k ih =>
    intro is
    cases is with
    | nil => simp
    | cons i is =>
      rw [Nat.succ_mul, Nat.add_comm (k * m), Nat.add_assoc, List.map_cons, List.flatten_cons, ← hw i,
        List.take_length_add_append, hw i, ih]
      simp

end

/-! ### The bytes a variant takes (R215) -/

theorem toList_eq_map_finRange {α : Type} (h : Vector α 8) : h.toList = (List.finRange 8).map fun i => h[i] := by
  apply List.ext_getElem <;> simp

theorem digestOf_of_c32 {v : Variant} (hv : (cfg v).core = .c32) (h : Vector Word64 8) :
    digestOf v h =
      ((List.finRange 8).map fun i => wordBytes (h[i].setWidth 32)).flatten.take (cfg v).outBytes := by
  rw [digestOf, hv, toList_eq_map_finRange, List.map_map]
  rfl

theorem digestOf_of_c64 {v : Variant} (hv : (cfg v).core = .c64) (h : Vector Word64 8) :
    digestOf v h = ((List.finRange 8).map fun i => wordBytes h[i]).flatten.take (cfg v).outBytes := by
  rw [digestOf, hv, toList_eq_map_finRange, List.map_map]
  rfl

/-- No digest is longer than the eight state words, which are half a block (R7). -/
theorem outBytes_le (v : Variant) : (cfg v).outBytes ≤ (cfg v).blockBytes / 2 := by cases v <;> decide

/-- The state words have the OUT(variant) bytes that the digest takes of them. -/
theorem digestOf_length (v : Variant) (h : Vector Word64 8) : (digestOf v h).length = (cfg v).outBytes := by
  have hout := outBytes_le v
  rw [blockBytes_eq_of_core] at hout
  cases hv : (cfg v).core with
  | c32 =>
    rw [if_pos hv] at hout
    rw [digestOf_of_c32 hv, List.length_take, length_flatten_words _ fun _ => wordBytes_length _]
    exact Nat.min_eq_left hout
  | c64 =>
    rw [if_neg (by simp [hv])] at hout
    rw [digestOf_of_c64 hv, List.length_take, length_flatten_words _ fun _ => wordBytes_length _]
    exact Nat.min_eq_left hout

/-- On C32, OUT is a whole number of words. -/
theorem digestOf_words_of_c32 {v : Variant} (hv : (cfg v).core = .c32) (k : Nat) (hk : (cfg v).outBytes = k * (32 / 8))
    (h : Vector Word64 8) :
    digestOf v h = (((List.finRange 8).take k).map fun i => wordBytes (h[i].setWidth 32)).flatten := by
  rw [digestOf_of_c32 hv, hk, ← Nat.add_zero (k * _), take_flatten_words _ fun _ => wordBytes_length _,
    List.take_zero, List.append_nil]

/-- On C64, OUT is k words and r bytes of those behind them. -/
theorem digestOf_words_of_c64 {v : Variant} (hv : (cfg v).core = .c64) (k r : Nat)
    (hk : (cfg v).outBytes = k * (64 / 8) + r) (h : Vector Word64 8) :
    digestOf v h = (((List.finRange 8).take k).map fun i => wordBytes h[i]).flatten ++
      (((List.finRange 8).drop k).map fun i => wordBytes h[i]).flatten.take r := by
  rw [digestOf_of_c64 hv, hk, take_flatten_words _ fun _ => wordBytes_length _]

/-- Settles O47: each variant takes whole words, but for SHA-512/224, which takes four bytes of a word behind three. -/
theorem digestWordsByVariant : Obligations.DigestWordsByVariant := by
  intro h
  refine ⟨fun v => digestOf_length v h, ?_, ?_⟩
  · intro w
    constructor
    · simp [digestOf_words_of_c32 (v := .sha224) rfl 7 rfl, w, List.finRange_succ]
    · simp [digestOf_words_of_c32 (v := .sha256) rfl 8 rfl, w, List.finRange_succ]
  · intro w
    refine ⟨?_, ?_, ?_, ?_⟩
    · simp [digestOf_words_of_c64 (v := .sha384) rfl 6 0 rfl, w, List.finRange_succ]
    · simp [digestOf_words_of_c64 (v := .sha512) rfl 8 0 rfl, w, List.finRange_succ]
    · simp [digestOf_words_of_c64 (v := .sha512_224) rfl 3 4 rfl, w, List.finRange_succ, ← take_four_wordBytes]
    · simp [digestOf_words_of_c64 (v := .sha512_256) rfl 4 0 rfl, w, List.finRange_succ]

end Sys2Proof.Machine
end

section
/-! PROOFS. 60_exceptions.md: the illegal commands (R242), fault entry (R244) and the FAULTED phase (R246, R247). -/

namespace Sys2Proof

/-! ### The clauses of R80, read from the command word -/

theorem split_op_toNat (c : Command) : c.split.op.toNat = c.word.toNat % 16 := by
  simp [Command.split]

theorem split_var_toNat (c : Command) : c.split.var.toNat = c.word.toNat / 16 % 8 := by
  simp [Command.split, Nat.shiftRight_eq_div_pow]

theorem split_rsv_toNat (c : Command) : c.split.rsv.toNat = c.word.toNat / 128 := by
  have := c.word.isLt
  simp only [Command.split, BitVec.extractLsb'_toNat, Nat.shiftRight_eq_div_pow]
  omega

/-- The VAR codes 6 and 7 alone name no INIT row (R7, R82). -/
theorem decodeInit_illegal_iff (var : BitVec 3) :
    (∃ why, decodeInit var = .illegal why) ↔ 6 ≤ var.toNat := by
  unfold decodeInit
  split
  case h_7 => exact iff_of_true ⟨_, rfl⟩ (by grind)
  all_goals exact iff_of_false (by simp) (by omega)

/-- R77 returns ILLEGAL exactly for the clauses (a) to (e) of R80: the cases are R77's tests, in its order. -/
theorem decodeFields_illegal_iff (f : Fields) :
    (∃ why, decodeFields f = .illegal why) ↔
      (f.op.toNat = 0 ∨ 5 ≤ f.op.toNat) ∨ f.rsv.toNat ≠ 0 ∨ (f.op.toNat = 1 ∧ 6 ≤ f.var.toNat) ∨
      (f.op.toNat ≠ 1 ∧ f.var.toNat ≠ 0) ∨ (f.payload ≠ [] ∧ f.op.toNat ≠ 2) := by
  simp only [decodeFields, ne_eq, ← BitVec.toNat_inj, ← List.length_eq_zero_iff, BitVec.ofNat_eq_ofNat,
    BitVec.toNat_ofNat, Nat.reducePow, Nat.reduceMod]
  split
  · exact iff_of_true ⟨_, rfl⟩ (by omega)
  split
  · split
    · exact iff_of_true ⟨_, rfl⟩ (by omega)
    · rw [decodeInit_illegal_iff]
      omega
  split
  · exact iff_of_true ⟨_, rfl⟩ (by omega)
  split
  · exact iff_of_false (by simp) (by omega)
  split
  · exact iff_of_true ⟨_, rfl⟩ (by omega)
  split
  · exact iff_of_false (by simp) (by omega)
  split
  · exact iff_of_false (by simp) (by omega)
  · exact iff_of_true ⟨_, rfl⟩ (by omega)

/-- The clauses of R80 on the command word as a number (R72). -/
theorem decode_illegal_iff (c : Command) :
    (∃ why, decode c = .illegal why) ↔
      (c.word.toNat % 16 = 0 ∨ 5 ≤ c.word.toNat % 16) ∨
      c.word.toNat / 128 ≠ 0 ∨
      (c.word.toNat % 16 = 1 ∧ 6 ≤ c.word.toNat / 16 % 8) ∨
      (c.word.toNat % 16 ≠ 1 ∧ c.word.toNat / 16 % 8 ≠ 0) ∨
      (c.payload ≠ [] ∧ c.word.toNat % 16 ≠ 2) := by
  rw [← split_op_toNat, ← split_var_toNat, ← split_rsv_toNat]
  exact decodeFields_illegal_iff c.split

end Sys2Proof

namespace Sys2Proof.Machine

/-! ### What a presented command can do -/

theorem status_eq_illegalCommand_iff (c : Cause) : c.status = .illegalCommand ↔ c = .illegalCommand := by
  cases c <;> decide

/-- What a command can do, by its answer: it finds the engine FAULTED, it takes a fault that is not ILLEGAL_COMMAND, or it is
answered OK. -/
theorem exec_answer_cases {i : Instr} {s t : State} (h : exec i s = .next t) :
    (s.phase = .faulted ∧ t = engineFaulted s) ∨
    (s.phase ≠ .faulted ∧ ∃ cause, cause ≠ .illegalCommand ∧ t = raiseFault cause s) ∨
    ∃ data, t.response = some ⟨.ok, data⟩ := by
  rcases exec_cases i s t h with hf | ⟨cause, -, hc, rfl⟩ | ⟨v, -, -, rfl⟩ | ⟨d, -, -, -, rfl⟩ |
    ⟨-, -, rfl⟩ | ⟨-, -, rfl⟩
  · exact .inl hf
  · rcases hc with ⟨hp, rfl⟩ | ⟨hp, rfl⟩ | ⟨hp, rfl, -⟩ <;> exact .inr (.inl ⟨by simp [hp], _, by decide, rfl⟩)
  all_goals exact .inr (.inr ⟨_, rfl⟩)

section
variable {s t : State} {c : Command} {rest : List HostEvent}

theorem step_illegal (hi : s.inbox = .command c :: rest) (hr : s.response = none)
    (hill : ∃ why, decode c = .illegal why) :
    step s = .next (illegalCommand { s with inbox := rest }) := by
  obtain ⟨why, hd⟩ := hill
  rcases step_command hi hr with ⟨_, _, h⟩ | ⟨i, hi', _⟩
  · exact h
  · simp [hd] at hi'

/-- What a presented command can do, legal or not, by its answer. -/
theorem step_answer_cases (hi : s.inbox = .command c :: rest) (hr : s.response = none) (h : step s = .next t) :
    (s.phase = .faulted ∧ t = engineFaulted { s with inbox := rest }) ∨
    (s.phase ≠ .faulted ∧ ∃ cause, (cause = .illegalCommand → ∃ why, decode c = .illegal why) ∧
      t = raiseFault cause { s with inbox := rest }) ∨
    ∃ data, t.response = some ⟨.ok, data⟩ := by
  rcases step_command hi hr with ⟨why, hd, hs⟩ | ⟨i, -, hs⟩ <;> rw [hs] at h
  · injection h with h
    subst h
    rcases illegalCommand_cases { s with inbox := rest } with hf | ⟨hp, he⟩
    · exact .inl hf
    · exact .inr (.inl ⟨hp, _, fun _ => ⟨why, hd⟩, he⟩)
  · rcases exec_answer_cases h with hf | ⟨hp, cause, hc, he⟩ | hok
    · exact .inl hf
    · exact .inr (.inl ⟨hp, cause, fun hc' => absurd hc' hc, he⟩)
    · exact .inr (.inr hok)

end

section
variable {s : State}

/-- In FAULTED the phase checks of every instruction answer ENGINE_FAULTED. -/
theorem exec_of_faulted (i : Instr) (hp : s.phase = .faulted) : exec i s = .next (engineFaulted s) := by
  obtain ⟨t, ht⟩ := exec_next i s
  rcases exec_cases i s t ht with ⟨-, rfl⟩ | ⟨c, -, hc, -⟩ | ⟨v, -, hp', -⟩ | ⟨d, -, hp', -⟩ |
    ⟨-, hp', -⟩ | ⟨-, hp', -⟩
  · exact ht
  · simp [FaultsWith, hp] at hc
  all_goals simp [hp] at hp'

/-- In FAULTED a presented command, legal or not, is answered ENGINE_FAULTED (R246). -/
theorem step_command_of_faulted {c : Command} {rest : List HostEvent} (hi : s.inbox = .command c :: rest)
    (hr : s.response = none) (hp : s.phase = .faulted) :
    step s = .next (engineFaulted { s with inbox := rest }) := by
  rcases step_command hi hr with ⟨why, -, hs⟩ | ⟨i, -, hs⟩
  · rcases illegalCommand_cases { s with inbox := rest } with ⟨-, he⟩ | ⟨hnp, -⟩
    · rw [hs, he]
    · exact absurd hp hnp
  · rw [hs]
    exact exec_of_faulted i hp

/-- One command of a run from FAULTED: the host takes the response, and nothing else has changed. -/
theorem transact_of_faulted (c : Command) (hp : s.phase = .faulted) :
    transact c s = some (⟨.engineFaulted, []⟩, { s with response := none }) := by
  have hstep : step (s.offer c) = .next (engineFaulted { s.offer c with inbox := s.inbox }) :=
    step_command_of_faulted rfl rfl hp
  rw [transact, hstep]
  rfl

end

/-! ### The obligations -/

/-- Settles O3: the clauses are decode's own tests, and no legal command takes ILLEGAL_COMMAND as its fault. -/
theorem illegalCommandsAreTheFiveClauses : Obligations.IllegalCommandsAreTheFiveClauses := by
  intro c s rest
  refine ⟨decode_illegal_iff c, fun hi hr => ⟨fun hill hp => ?_, fun t h ht => ?_⟩⟩
  · rw [step_illegal hi hr hill]
    rcases illegalCommand_cases { s with inbox := rest } with ⟨hf, -⟩ | ⟨-, he⟩
    · exact absurd hf hp
    · rw [he]; rfl
  · rcases step_answer_cases hi hr h with ⟨-, rfl⟩ | ⟨hp, cause, hc, rfl⟩ | ⟨data, hok⟩
    · simp at ht
    · exact ⟨hc (by simpa [status_eq_illegalCommand_iff] using ht), hp⟩
    · simp [hok] at ht

/-- Settles O13, by the command's answer: it found the engine FAULTED, it took a fault, or it was answered OK. -/
theorem faultsArePreciseAndSticky : Obligations.FaultsArePreciseAndSticky := by
  intro s t c rest r hi hr h ht hst
  rcases step_answer_cases hi hr h with ⟨hp, rfl⟩ | ⟨hp, cause, -, rfl⟩ | ⟨data, hok⟩
  · obtain rfl : _ = r := Option.some.inj ht
    simp [hp]
  · obtain rfl : _ = r := Option.some.inj ht
    simp [hp]
  · obtain rfl : _ = r := Option.some.inj (hok.symm.trans ht)
    exact absurd rfl hst

/-- Settles O14, by the host's next event. -/
theorem onlyResetLeavesFaulted : Obligations.OnlyResetLeavesFaulted := by
  intro s t hp h
  rcases step_cases s t h with ⟨-, rfl⟩ | ⟨rest, -, rfl⟩ | ⟨rest, hi, rfl⟩ | ⟨c, rest, hi, -, rfl⟩ |
    ⟨c, rest, -, hi, hr, -, -⟩ | ⟨c, rest, -, hi, hr, -, -⟩
  · exact .inl ⟨hp, rfl⟩
  · exact .inl ⟨hp, rfl⟩
  · exact .inr ⟨.inl ⟨rest, hi⟩, rfl, rfl⟩
  · exact .inr ⟨.inr ⟨c, rest, hi⟩, rfl, rfl⟩
  all_goals
    rw [step_command_of_faulted hi hr hp] at h
    obtain rfl := Host.Outcome.next.inj h
    exact .inl ⟨hp, rfl⟩

/-- Settles O18, by induction on the commands: each leaves the engine FAULTED for the next. -/
theorem faultedAnswersEveryCommandAlike : Obligations.FaultedAnswersEveryCommandAlike := by
  intro cs
  induction cs with
  | nil => intro s _; rfl
  | cons c cs ih =>
    intro s hp
    rw [observe, transact_of_faulted c hp]
    simp [ih { s with response := none } hp, List.replicate_succ]

end Sys2Proof.Machine
end

section
/-! PROOFS. 30_encoding.md: decoding against encoding (R72, R77, R78), the assembler lines (R81) and the step on each of the
host's events (R70, R71). -/

namespace Sys2Proof

/-! ### Decoding and encoding (R72, R77) -/

theorem decodeFields_fields (i : Instr) : decodeFields i.fields = .command i := by
  cases i <;> rfl

/-- A VAR code that names an INIT row is the one in that row's fields. -/
theorem fields_of_decodeInit {var : BitVec 3} {i : Instr} (h : decodeInit var = .command i) :
    i.fields = ⟨1, var, 0, []⟩ := by
  rw [decodeInit] at h
  split at h
  case h_7 => cases h
  all_goals
    cases h
    exact congrArg (Fields.mk 1 · 0 []) (by bv_omega)

/-- R77 answers a legal command only where every field is that command's own: the cases are R77's tests, in its order. -/
theorem fields_of_decodeFields {f : Fields} {i : Instr} (h : decodeFields f = .command i) : i.fields = f := by
  obtain ⟨op, var, rsv, payload⟩ := f
  simp only [decodeFields, ne_eq, ite_not] at h
  split_ifs at h with hrsv hinit hpayload hvar hupdate hpayload hfinalize hreset
  case pos => subst hrsv hinit hpayload; exact fields_of_decodeInit h
  all_goals cases h
  · subst hrsv hvar hupdate; rfl
  · subst hrsv hvar hpayload hfinalize; rfl
  · subst hrsv hvar hpayload hreset; rfl

theorem decode_encode (i : Instr) : decode (encode i) = .command i := by
  rw [decode, encode, split_join, decodeFields_fields]

/-- Settles O2: the fields of a legal command are those of its instruction, and joining is inverse to splitting. -/
theorem decodeIsInverseOfEncode : Obligations.DecodeIsInverseOfEncode := by
  refine fun c i => ⟨fun h => ?_, fun h => ?_⟩
  · rw [encode, fields_of_decodeFields h, join_split]
  · rw [← h, decode_encode]

theorem encode_update (d : List Byte) : encode (.update d) = ⟨0x00000002, d⟩ := by
  simp [encode, Instr.fields, Fields.join]

/-- Settles O1: each word is the encoding of its command. -/
theorem commandWordsDecode : Obligations.CommandWordsDecode :=
  ⟨decode_encode .initSha224, decode_encode .initSha256, decode_encode .initSha384, decode_encode .initSha512,
    decode_encode .initSha512_224, decode_encode .initSha512_256, fun d => encode_update d ▸ decode_encode (.update d),
    decode_encode .finalize, decode_encode .finalizeReset⟩

end Sys2Proof

namespace Sys2Proof.Machine

/-! ### The assembler (R81) -/

theorem hexDigit_hexChar : ∀ n < 16, hexDigit (hexChar n) = some n := by decide

theorem hexByte_hexChar (b : Byte) : hexByte (hexChar (b.toNat / 16)) (hexChar (b.toNat % 16)) = some b := by
  have hb := b.isLt
  rw [hexByte, hexDigit_hexChar _ (by omega), hexDigit_hexChar _ (by omega)]
  simp [Nat.div_add_mod]

/-- Reading back the hex digits of a byte sequence leaves nothing of the text. -/
theorem hexPairs_hexText (d : List Byte) : hexPairs (hexText d) = (d, []) := by
  induction d with
  | nil => rfl
  | cons b d ih => rw [hexText, hexPairs, hexByte_hexChar, ih]

/-- An UPDATE line with a hex operand, by the pairs of digits in the operand. -/
theorem asmCommand_update_hex (cs : List Char) :
    asmCommand (['U', 'P', 'D', 'A', 'T', 'E', ' ', '0', 'x'] ++ cs) =
      if lineEnds (hexPairs cs).2 then some (.update (hexPairs cs).1) else none := rfl

/-- Settles O4: the lines without a payload are closed texts, and the hex digits of a payload are read back as its bytes. -/
theorem assemblerSpellsEveryCommand : Obligations.AssemblerSpellsEveryCommand := by
  refine ⟨fun v => ?_, fun d => ?_, by decide, by decide⟩
  · cases v <;> decide
  · rw [asmCommand_update_hex, hexPairs_hexText]
    rfl

/-! ### The step on each host event (R70, R71, R270, R271) -/

section
variable {s : State} {rest : List HostEvent}

theorem step_idle (hi : s.inbox = []) : step s = .next s := by
  simp [step, fetch, hi]

theorem step_takeResponse (hi : s.inbox = .takeResponse :: rest) :
    step s = .next { s with response := .none, inbox := rest } := by
  simp [step, fetch, hi]

theorem step_reset (hi : s.inbox = .reset :: rest) : step s = .next (hardReset { s with inbox := rest }) := by
  simp [step, fetch, hi]

theorem step_commandCutByReset {c : Command} (hi : s.inbox = .commandCutByReset c :: rest) (hr : s.response = none) :
    step s = .next (hardReset { s with inbox := rest }) := by
  simp [step, fetch, hi, hr]

theorem step_legal {c : Command} {i : Instr} (hi : s.inbox = .command c :: rest) (hr : s.response = none)
    (hd : decode c = .command i) : step s = exec i { s with inbox := rest } := by
  simp [step, fetch, hi, hr, present, hd]

/-- A command, let run or cut by a reset, that the host presents too early. -/
theorem step_untaken {c : Command} {r : Response}
    (hi : s.inbox = .command c :: rest ∨ s.inbox = .commandCutByReset c :: rest) (hr : s.response = some r) :
    step s = .refused .responseNotTaken := by
  rcases hi with hi | hi <;> simp [step, fetch, hi, hr]

end

/-- Settles O5: a command on a free channel is fetched, decoded and run. -/
theorem stepRunsTheDecodedCommand : Obligations.StepRunsTheDecodedCommand := fun _ _ _ _ => step_legal

/-- Settles O6: one lemma for each of the three events. -/
theorem handshakeSteps : Obligations.HandshakeSteps :=
  ⟨fun _ => step_idle, fun _ _ => step_takeResponse, fun _ _ _ _ hi => step_untaken (.inl hi)⟩

/-- A step answers a next state, or the host has presented a command before it took the previous response. -/
theorem step_total (s : State) : (∃ t, step s = .next t) ∨
    (step s = .refused .responseNotTaken ∧ s.response ≠ none ∧
      ∃ c rest, s.inbox = .command c :: rest ∨ s.inbox = .commandCutByReset c :: rest) := by
  cases hi : s.inbox with
  | nil => exact .inl ⟨_, step_idle hi⟩
  | cons e rest =>
    cases e with
    | takeResponse => exact .inl ⟨_, step_takeResponse hi⟩
    | reset => exact .inl ⟨_, step_reset hi⟩
    | commandCutByReset c =>
      cases hr : s.response with
      | none => exact .inl ⟨_, step_commandCutByReset hi hr⟩
      | some r => exact .inr ⟨step_untaken (.inr hi) hr, by simp, c, rest, .inr rfl⟩
    | command c =>
      cases hr : s.response with
      | none =>
        rcases step_command hi hr with ⟨_, _, h⟩ | ⟨i, _, h⟩
        · exact .inl ⟨_, h⟩
        · exact .inl (h ▸ exec_next i _)
      | some r => exact .inr ⟨step_untaken (.inl hi) hr, by simp, c, rest, .inl rfl⟩

/-- Settles O7: of the two outcomes of a step, neither is a fault and one is the refusal described. -/
theorem stepStopsOnlyOnABrokenHandshake : Obligations.StepStopsOnlyOnABrokenHandshake := by
  intro s
  rcases step_total s with ⟨t, h⟩ | ⟨h, hresp, hevent⟩ <;> rw [h]
  · simp
  · refine ⟨by simp, fun r hr => ?_⟩
    cases hr
    exact ⟨rfl, hresp, hevent⟩

/-- A presented command is answered, whatever it is. -/
theorem step_answers {s : State} {c : Command} {rest : List HostEvent} (hi : s.inbox = .command c :: rest)
    (hr : s.response = none) : ∃ t r, step s = .next t ∧ t.response = some r ∧ t.inbox = rest := by
  rcases step_command hi hr with ⟨_, _, h⟩ | ⟨i, _, h⟩ <;> rw [h]
  · rcases illegalCommand_cases { s with inbox := rest } with ⟨_, he⟩ | ⟨_, he⟩ <;> rw [he] <;>
      exact ⟨_, _, rfl, rfl, rfl⟩
  · exact exec_answers i { s with inbox := rest }

theorem transact_answers (c : Command) (s : State) :
    ∃ r t, transact c s = some (r, t) ∧ t.inbox = s.inbox := by
  obtain ⟨t, r, hstep, hresp, hinbox⟩ := step_answers (s := s.offer c) rfl rfl
  exact ⟨r, { t with response := none }, by simp only [transact, hstep, hresp], hinbox⟩

/-- Settles O8, by induction on the commands: each is answered. -/
theorem everyCommandIsAnswered : Obligations.EveryCommandIsAnswered := by
  intro cs
  induction cs with
  | nil => exact fun s => ⟨[], s, rfl, rfl, rfl⟩
  | cons c cs ih =>
    intro s
    obtain ⟨r, t, htransact, htinbox⟩ := transact_answers c s
    obtain ⟨rs, u, hobserve, hlength, huinbox⟩ := ih t
    refine ⟨r :: rs, u, ?_, by rw [List.length_cons, List.length_cons, hlength], huinbox.trans htinbox⟩
    simp only [observe, htransact, hobserve]

end Sys2Proof.Machine
end

section
/-! PROOFS. 60_exceptions.md and 70_reset_and_hazards.md: what each command does in each phase (R241), the order of the fault
conditions (R243), what a command writes of the control registers (R30 to R32), reset (R270, R271), and the faults of a
run (R272, R280). -/

namespace Sys2Proof.Machine

/-! ### The commands by phase (R241) -/

section
variable {s : State}

/-- INIT where the phase checks let it through. -/
theorem exec_initOf_accepted (v : Variant) (hp : s.phase ≠ .faulted) :
    exec (initOf v) s = .next (performInit v s) := by
  rw [exec_initOf, acceptInit_accepts _ hp]

theorem exec_finalize_active (hp : s.phase = .active) : exec .finalize s = .next (performFinalize s) := by
  rw [exec_finalize, acceptActive_active _ hp]

theorem exec_finalizeReset_active (hp : s.phase = .active) :
    exec .finalizeReset s = .next (performFinalizeReset s) := by
  rw [exec_finalizeReset, acceptActive_active _ hp]

/-- Every command but INIT goes through the phase checks of R243. -/
theorem exec_of_ne_initOf {i : Instr} (hni : ∀ v, i ≠ initOf v) :
    ∃ k, ∀ s, exec i s = .next (acceptActive k s) := by
  rcases instr_cases i with ⟨v, rfl⟩ | ⟨d, rfl⟩ | rfl | rfl
  · exact absurd rfl (hni v)
  · exact ⟨_, exec_update d⟩
  · exact ⟨_, exec_finalize⟩
  · exact ⟨_, exec_finalizeReset⟩

theorem exec_of_unconfigured {i : Instr} (hp : s.phase = .unconfigured) (hni : ∀ v, i ≠ initOf v) :
    exec i s = .next (raiseFault .notConfigured s) := by
  obtain ⟨k, hk⟩ := exec_of_ne_initOf hni
  rw [hk, acceptActive, hp]

theorem exec_of_consumed {i : Instr} (hp : s.phase = .consumed) (hni : ∀ v, i ≠ initOf v) :
    exec i s = .next (raiseFault .useAfterFinalize s) := by
  obtain ⟨k, hk⟩ := exec_of_ne_initOf hni
  rw [hk, acceptActive, hp]

end

/-- Settles O11: one lemma for each cell of R241's table. -/
theorem commandAcceptanceByPhase : Obligations.CommandAcceptanceByPhase := by
  intro s i
  refine ⟨exec_of_faulted i, exec_of_unconfigured, exec_of_consumed, ?_, ?_, ?_, ?_⟩
  · rintro hp ⟨v, rfl⟩
    exact ⟨_, exec_initOf_accepted v hp, rfl, rfl⟩
  · rintro hp d rfl
    rcases Nat.lt_or_ge (lmax s.variant) (s.totalLength.toNat + d.length) with hl | hl
    · exact ⟨_, exec_update_overflow hp hl, .inr rfl⟩
    · exact ⟨_, exec_update_within hp hl, .inl rfl⟩
  · rintro hp rfl
    exact ⟨_, _, exec_finalize_active hp, rfl, rfl⟩
  · rintro hp rfl
    exact ⟨_, _, exec_finalizeReset_active hp, (pad_phase s).trans hp, rfl⟩

/-- The conditions of R243 that a legal command can meet, each with the status it reports. -/
theorem exec_reports (i : Instr) (s : State) : ∃ t r, exec i s = .next t ∧ t.response = some r ∧
    ((s.phase = .faulted ∧ r.status = .engineFaulted) ∨
     (s.phase ≠ .faulted ∧
       ((s.phase = .unconfigured ∧ (∀ v, i ≠ initOf v) ∧ r.status = .notConfigured) ∨
        (s.phase = .consumed ∧ (∀ v, i ≠ initOf v) ∧ r.status = .useAfterFinalize) ∨
        (s.phase = .active ∧ (∃ d, i = .update d ∧ lmax s.variant < s.totalLength.toNat + d.length) ∧
          r.status = .lengthOverflow) ∨
        (((∃ v, i = initOf v) ∨ (s.phase = .active ∧ ∀ d, i = .update d →
          s.totalLength.toNat + d.length ≤ lmax s.variant)) ∧ r.status = .ok)))) := by
  obtain ⟨t, ht⟩ := exec_next i s
  refine ⟨t, ?_⟩
  rcases exec_cases i s t ht with ⟨hp, rfl⟩ | ⟨cause, hni, hc, rfl⟩ | ⟨v, hv, hp, rfl⟩ | ⟨d, rfl, hp, hl, rfl⟩ |
    ⟨rfl, hp, rfl⟩ | ⟨rfl, hp, rfl⟩ <;> refine ⟨_, ht, rfl, ?_⟩
  · exact .inl ⟨hp, rfl⟩
  · rcases hc with ⟨hp, rfl⟩ | ⟨hp, rfl⟩ | ⟨hp, rfl, hlong⟩ <;> refine .inr ⟨by simp [hp], ?_⟩
    · exact .inl ⟨hp, hni, rfl⟩
    · exact .inr (.inl ⟨hp, hni, rfl⟩)
    · exact .inr (.inr (.inl ⟨hp, hlong, rfl⟩))
  · exact .inr ⟨hp, .inr (.inr (.inr ⟨.inl ⟨v, hv⟩, rfl⟩))⟩
  all_goals refine .inr ⟨by simp [hp], .inr (.inr (.inr ⟨.inr ⟨hp, fun d' hu => ?_⟩, rfl⟩))⟩
  · exact Instr.update.inj hu ▸ hl
  all_goals cases hu

/-- Settles O12: the conditions are tested in the order of R243, illegality by the step and the others by the command. -/
theorem firstFaultConditionIsReported : Obligations.FirstFaultConditionIsReported := by
  intro s c rest hi hr
  rcases step_command hi hr with ⟨why, hd, hs⟩ | ⟨i, hd, hs⟩ <;> rw [hs]
  · rcases illegalCommand_cases { s with inbox := rest } with ⟨hp, he⟩ | ⟨hp, he⟩ <;> rw [he]
    · exact ⟨_, _, rfl, rfl, .inl ⟨hp, rfl⟩⟩
    · exact ⟨_, _, rfl, rfl, .inr (.inl ⟨hp, ⟨why, hd⟩, rfl⟩)⟩
  · obtain ⟨t, r, ht, htr, hf | ⟨hp, hcond⟩⟩ := exec_reports i { s with inbox := rest }
    · exact ⟨t, r, ht, htr, .inl hf⟩
    · exact ⟨t, r, ht, htr, .inr (.inr ⟨hp, i, hd, hcond⟩)⟩

/-! ### What a command writes of the control registers (R30 to R32) -/

/-- Settles O16, by what the command can do: a fault latches its cause, and of the effects INIT and FINALIZE alone write
the phase. -/
theorem phaseIsEnteredAsTheTableSays : Obligations.PhaseIsEnteredAsTheTableSays := by
  intro i s t h hne
  rcases exec_cases i s t h with ⟨-, rfl⟩ | ⟨c, -, hc, rfl⟩ | ⟨v, hv, -, rfl⟩ | ⟨d, -, -, -, rfl⟩ |
    ⟨hf, hp, rfl⟩ | ⟨-, -, rfl⟩
  · exact absurd rfl hne
  · rcases hc with ⟨-, rfl⟩ | ⟨-, rfl, -⟩ | ⟨-, rfl, -⟩ <;> exact .inr (.inr ⟨rfl, by simp⟩)
  · exact .inl ⟨rfl, v, hv⟩
  · exact absurd (absorbAll_phase d s) hne
  · exact .inr (.inl ⟨rfl, hp, hf⟩)
  · exact absurd (pad_phase s) hne

/-- Settles O23, by what the command can do: faults, the byte steps and Pad() leave variant alone. -/
theorem onlyInitWritesVariant : Obligations.OnlyInitWritesVariant := by
  intro i s t h
  rcases exec_cases i s t h with ⟨hp, rfl⟩ | ⟨c, hni, -, rfl⟩ | ⟨v, hv, hp, rfl⟩ | ⟨d, rfl, -, -, rfl⟩ |
    ⟨rfl, -, rfl⟩ | ⟨rfl, -, rfl⟩
  · exact .inl ⟨rfl, .inl hp⟩
  · exact .inl ⟨rfl, .inr hni⟩
  · exact .inr ⟨hp, hv⟩
  · exact .inl ⟨absorbAll_variant d s, .inr (update_ne_initOf · d)⟩
  · exact .inl ⟨pad_variant s, .inr finalize_ne_initOf⟩
  · exact .inl ⟨pad_variant s, .inr finalizeReset_ne_initOf⟩

/-- Settles O17: the finalize commands alone give `respond` a digest, and a digest has OUT(variant) bytes. -/
theorem onlyFinalizeAnswersData : Obligations.OnlyFinalizeAnswersData := by
  intro i s t r h hr
  have digest_length : (assembleDigest (pad s)).length = (cfg s.variant).outBytes := by
    rw [assembleDigest_pad, digestOf_length]
  rcases exec_cases i s t h with ⟨-, rfl⟩ | ⟨c, -, hc, rfl⟩ | ⟨v, rfl, -, rfl⟩ | ⟨d, rfl, -, -, rfl⟩ |
    ⟨hf, -, rfl⟩ | ⟨hf, -, rfl⟩ <;> obtain rfl : _ = r := Option.some.inj hr
  · exact .inl ⟨rfl, by simp⟩
  · refine .inl ⟨rfl, ?_⟩
    rcases hc with ⟨-, rfl⟩ | ⟨-, rfl⟩ | ⟨-, rfl, -⟩ <;> simp [Cause.status]
  · exact .inl ⟨rfl, by simp⟩
  · exact .inl ⟨rfl, by simp⟩
  · exact .inr ⟨rfl, .inl hf, digest_length⟩
  · exact .inr ⟨rfl, .inr hf, digest_length⟩

/-- What a command does to the control registers: it finds the engine FAULTED and writes nothing, it takes a fault, or it is
answered OK, keeps fault_cause and leaves the engine out of FAULTED. -/
theorem exec_control_cases {i : Instr} {s t : State} (h : exec i s = .next t) :
    (s.phase = .faulted ∧ t = engineFaulted s) ∨
    (s.phase ≠ .faulted ∧ ∃ c, c ≠ .none ∧ t = raiseFault c s) ∨
    (t.phase ≠ .faulted ∧ t.faultCause = s.faultCause ∧ ∃ data, t.response = some ⟨.ok, data⟩) := by
  rcases exec_cases i s t h with hf | ⟨c, -, hc, rfl⟩ | ⟨v, -, hp, rfl⟩ | ⟨d, -, hp, -, rfl⟩ |
    ⟨-, hp, rfl⟩ | ⟨-, hp, rfl⟩
  · exact .inl hf
  · rcases hc with ⟨hp, rfl⟩ | ⟨hp, rfl⟩ | ⟨hp, rfl, -⟩ <;> exact .inr (.inl ⟨by simp [hp], _, by simp, rfl⟩)
  · exact .inr (.inr ⟨by simp [performInit], rfl, _, rfl⟩)
  · exact .inr (.inr ⟨by simp [hp], absorbAll_faultCause d s, _, rfl⟩)
  · exact .inr (.inr ⟨by simp [performFinalize], pad_faultCause s, _, rfl⟩)
  · exact .inr (.inr ⟨by simp [performFinalizeReset, hp], pad_faultCause s, _, rfl⟩)

/-- The same of a presented command, legal or not. -/
theorem step_control_cases {s t : State} {c : Command} {rest : List HostEvent} (hi : s.inbox = .command c :: rest)
    (hr : s.response = none) (h : step s = .next t) :
    (s.phase = .faulted ∧ t = engineFaulted { s with inbox := rest }) ∨
    (s.phase ≠ .faulted ∧ ∃ cause, cause ≠ .none ∧ t = raiseFault cause { s with inbox := rest }) ∨
    (t.phase ≠ .faulted ∧ t.faultCause = s.faultCause ∧ ∃ data, t.response = some ⟨.ok, data⟩) := by
  rcases step_command hi hr with ⟨-, -, hs⟩ | ⟨i, -, hs⟩ <;> rw [hs] at h
  · cases h
    rcases illegalCommand_cases { s with inbox := rest } with hf | ⟨hp, he⟩
    · exact .inl hf
    · exact .inr (.inl ⟨hp, _, by simp, he⟩)
  · exact exec_control_cases h

/-- Settles O15, by the host's next event. -/
theorem faultCauseIsWrittenByTheFirstFaultOnly : Obligations.FaultCauseIsWrittenByTheFirstFaultOnly := by
  intro s t h hne
  have of_command {c rest} (hi : s.inbox = .command c :: rest) (hr : s.response = none) :
      s.phase ≠ .faulted ∧ t.phase = .faulted ∧ ∃ r, t.response = some r ∧ r.status = t.faultCause.status := by
    rcases step_control_cases hi hr h with ⟨-, rfl⟩ | ⟨hp, cause, -, rfl⟩ | ⟨-, hsame, -⟩
    · exact absurd rfl hne
    · exact ⟨hp, rfl, _, rfl, rfl⟩
    · exact absurd hsame hne
  rcases step_cases s t h with ⟨-, rfl⟩ | ⟨rest, -, rfl⟩ | ⟨rest, hi, rfl⟩ | ⟨c, rest, hi, -, rfl⟩ |
    ⟨c, rest, -, hi, hr, -, -⟩ | ⟨c, rest, -, hi, hr, -, -⟩
  · exact absurd rfl hne
  · exact absurd rfl hne
  · exact .inr ⟨.inl ⟨rest, hi⟩, rfl, rfl⟩
  · exact .inr ⟨.inr ⟨c, rest, hi⟩, rfl, rfl⟩
  · exact .inl (of_command hi hr)
  · exact .inl (of_command hi hr)

/-! ### Reset (R270, R271) -/

/-- Settles O9: a reset event gives the registers the values of `State.reset`. -/
theorem resetLeavesUnconfigured : Obligations.ResetLeavesUnconfigured :=
  ⟨⟨rfl, rfl⟩, fun _ _ hi => ⟨_, step_reset hi, rfl, rfl, rfl⟩⟩

/-- Settles O10: both events are one `hardReset`, which leaves the response channel as it was. -/
theorem resetAbandonsTheCommand : Obligations.ResetAbandonsTheCommand := by
  intro s c rest hr
  have hcut : step { s with inbox := .commandCutByReset c :: rest } = .next (hardReset { s with inbox := rest }) :=
    step_commandCutByReset rfl hr
  have hreset : step { s with inbox := .reset :: rest } = .next (hardReset { s with inbox := rest }) := step_reset rfl
  refine ⟨hcut.trans hreset.symm, fun t ht => ?_⟩
  obtain rfl := Host.Outcome.next.inj (hcut.symm.trans ht)
  exact hr

/-! ### The faults of a run (R272, R280) -/

theorem status_ne_ok {c : Cause} (hc : c ≠ .none) : c.status ≠ .ok := by
  cases c <;> simp_all [Cause.status]

/-- A run from FAULTED is answered ENGINE_FAULTED throughout, and the engine stays there. -/
theorem observe_of_faulted {cs : List Command} {s t : State} {rs : List Response} (hp : s.phase = .faulted)
    (h : observe cs s = some (rs, t)) : (∀ r ∈ rs, r.status = .engineFaulted) ∧ t.phase = .faulted := by
  have hrun := faultedAnswersEveryCommandAlike cs s hp
  obtain ⟨rfl, rfl⟩ : _ = rs ∧ _ = t := by simpa [hrun] using h
  refine ⟨fun r hr => by rw [List.eq_of_mem_replicate hr], ?_⟩
  split <;> exact hp

/-- What the first command of a run does to the control registers. -/
theorem transact_control_cases {s t : State} {c : Command} {r : Response} (h : transact c s = some (r, t)) :
    (s.phase = .faulted ∧ r.status = .engineFaulted ∧ t.phase = .faulted) ∨
    (s.phase ≠ .faulted ∧ r.status ≠ .ok ∧ t.phase = .faulted) ∨
    (t.phase ≠ .faulted ∧ r.status = .ok) := by
  obtain ⟨u, hu, hr, rfl⟩ := transact_inv h
  rcases step_control_cases rfl rfl hu with ⟨hp, rfl⟩ | ⟨hp, cause, hc, rfl⟩ | ⟨hp, -, data, hok⟩
  · cases hr
    exact .inl ⟨hp, rfl, hp⟩
  · cases hr
    exact .inr (.inl ⟨hp, status_ne_ok hc, rfl⟩)
  · cases hok.symm.trans hr
    exact .inr (.inr ⟨hp, rfl⟩)

/-- Settles O20, by induction on the commands: after a fault the rest of the run stays in FAULTED. -/
theorem runFaultsExactlyWhenItEndsFaulted : Obligations.RunFaultsExactlyWhenItEndsFaulted := by
  intro cs
  induction cs with
  | nil =>
    intro s t rs hp h
    cases h
    simpa [runFaulted] using hp
  | cons c cs ih =>
    intro s t rs hp h
    obtain ⟨r, u, rs', hfirst, hrest, rfl⟩ := observe_cons h
    rcases transact_control_cases hfirst with ⟨hf, -⟩ | ⟨-, hst, hu⟩ | ⟨hu, hst⟩
    · exact absurd hf hp
    · exact iff_of_true (by simp [runFaulted, hst]) (observe_of_faulted hu hrest).2
    · rw [← ih u t rs' hu hrest]
      simp [runFaulted, hst]

/-- In UNCONFIGURED every presented command but INIT faults. -/
theorem step_of_unconfigured {s : State} {c : Command} {rest : List HostEvent} (hi : s.inbox = .command c :: rest)
    (hr : s.response = none) (hp : s.phase = .unconfigured) (hni : ∀ v, decode c ≠ .command (initOf v)) :
    ∃ cause, cause ≠ .none ∧ step s = .next (raiseFault cause { s with inbox := rest }) := by
  rcases step_command hi hr with ⟨_, _, hs⟩ | ⟨i, hd, hs⟩ <;> rw [hs]
  · rcases illegalCommand_cases { s with inbox := rest } with ⟨hf, _⟩ | ⟨_, he⟩
    · exact absurd (hp.symm.trans hf) (by decide)
    · exact ⟨.illegalCommand, by decide, congrArg _ he⟩
  · exact ⟨.notConfigured, by decide,
      exec_of_unconfigured (s := { s with inbox := rest }) hp fun v hv => hni v (hv ▸ hd)⟩

theorem transact_of_unconfigured {s t : State} {c : Command} {r : Response} (hp : s.phase = .unconfigured)
    (hni : ∀ v, decode c ≠ .command (initOf v)) (h : transact c s = some (r, t)) :
    r.status ≠ .ok ∧ t.phase = .faulted := by
  obtain ⟨u, hu, hr, rfl⟩ := transact_inv h
  obtain ⟨cause, hc, hstep⟩ := step_of_unconfigured (s := s.offer c) rfl rfl hp hni
  obtain rfl := Host.Outcome.next.inj (hstep.symm.trans hu)
  cases hr
  exact ⟨status_ne_ok hc, rfl⟩

/-- Settles O19: the first command takes a fault, and after it the engine is FAULTED. -/
theorem nothingSucceedsBeforeInit : Obligations.NothingSucceedsBeforeInit := by
  intro cs s t rs hp hni h
  cases cs with
  | nil =>
    cases h
    simp
  | cons c cs =>
    obtain ⟨r, u, rs', hfirst, hrest, rfl⟩ := observe_cons h
    obtain ⟨hst, hu⟩ := transact_of_unconfigured hp (hni c (by simp)) hfirst
    have hfaulted := (observe_of_faulted hu hrest).1
    simp only [List.mem_cons, forall_eq_or_imp]
    exact ⟨hst, fun r' hr' => by simp [hfaulted r' hr']⟩

end Sys2Proof.Machine
end

section
/-! PROOFS. 00_scope.md: the variant record (R7), rotation (R12) and the big-endian conversions (R13). -/

namespace Sys2Proof.Machine

/-! ### The variant record (R7) -/

/-- Wbits and R are fixed by the core. -/
theorem wordBits_eq_of_core (v : Variant) :
    (cfg v).wordBits = if (cfg v).core = .c32 then 32 else 64 := by cases v <;> rfl

theorem rounds_eq_of_core (v : Variant) :
    (cfg v).rounds = if (cfg v).core = .c32 then 64 else 80 := by cases v <;> rfl

/-- Settles O49: the record is the table's row by row, and what the cores have of it is fixed by the core alone. -/
theorem variantRecordAndCoresAgree : Obligations.VariantRecordAndCoresAgree := by
  refine ⟨fun v => by cases v <;> rfl, fun v hv => ?_, fun v hv => ?_⟩
  · rw [rounds_eq_of_core, wordBits_eq_of_core, blockBytes_eq_of_core, hv]
    exact ⟨core32_k_length, rfl, rfl⟩
  · rw [rounds_eq_of_core, wordBits_eq_of_core, blockBytes_eq_of_core, hv]
    exact ⟨core64_k_length, rfl, rfl⟩

/-! ### Rotation (R12) -/

/-- Settles O50: below N - r the bit comes from the right shift, from there on from the left shift. -/
theorem rotrRotatesBits : Obligations.RotrRotatesBits := by
  intro n x r i hr hrn hi
  rw [rotr, BitVec.getLsbD_or, BitVec.getLsbD_ushiftRight, BitVec.getLsbD_shiftLeft]
  by_cases h : i < n - r
  · rw [Nat.mod_eq_of_lt (by omega), Nat.add_comm r i]
    simp [h]
  · have hwrap : (i + r) % n = i - (n - r) := by
      rw [Nat.mod_eq_sub_mod (by omega), Nat.mod_eq_of_lt (by omega)]
      omega
    rw [hwrap, BitVec.getLsbD_of_ge x (r + i) (by omega)]
    simp [h, hi]

/-! ### Words and bytes (R13) -/

theorem two_pow_eight_mul (k : Nat) : 2 ^ (8 * k) = 256 ^ k := Nat.pow_mul 2 8 k

theorem wordBytes_eq {k : Nat} (x : BitVec (8 * k)) : wordBytes x = beBytes k x.toNat := by
  rw [wordBytes, Nat.mul_div_cancel_left k (by decide)]

/-- On as many bytes as the word has, `beWord` cuts nothing. -/
theorem beWord_toNat {k : Nat} {bs : List Byte} (hk : bs.length = k) :
    (beWord (8 * k) bs).toNat = beNumber 0 bs := by
  rw [beWord_eq, BitVec.toNat_ofNat, two_pow_eight_mul, ← hk, Nat.mod_eq_of_lt (beNumber_lt bs)]

theorem beWord_wordBytes (k : Nat) (x : BitVec (8 * k)) : beWord (8 * k) (wordBytes x) = x := by
  apply BitVec.eq_of_toNat_eq
  rw [wordBytes_eq, beWord_toNat (beBytes_length k _), beNumber_beBytes, ← two_pow_eight_mul,
    Nat.mod_eq_of_lt x.isLt]

theorem wordBytes_beWord {k : Nat} {bs : List Byte} (hk : bs.length = k) :
    wordBytes (beWord (8 * k) bs) = bs := by
  rw [wordBytes_eq, beWord_toNat hk, ← hk, beBytes_beNumber]

/-- The weight of the first byte. -/
theorem beWord_cons_toNat {k : Nat} (b : Byte) {bs : List Byte} (hk : bs.length = k) :
    (beWord (8 * (k + 1)) (b :: bs)).toNat = b.toNat * 2 ^ (8 * k) + (beWord (8 * k) bs).toNat := by
  rw [beWord_toNat (by rw [List.length_cons, hk]), beWord_toNat hk, beNumber_cons, beNumber_start,
    two_pow_eight_mul, hk, Nat.zero_mul, Nat.zero_add]

/-- Settles O48: on k bytes both conversions go through `beNumber`, which is below 256^k. -/
theorem bigEndianRoundTrip : Obligations.BigEndianRoundTrip :=
  ⟨beWord_wordBytes, fun _ _ => wordBytes_beWord, fun _ b _ => beWord_cons_toNat b⟩

end Sys2Proof.Machine
end

section
/-! PROOFS. 42_compress32.md and 43_compress64.md section 6: the datapath with its 16-word window (R136, R166). -/

namespace Sys2Proof.Machine

section
variable {n : Nat} (F : CoreFns n) (h : Vector (BitVec n) 8) (blk : List Byte)

/-- The registers of the core before round t, as functions of the whole schedule: the working state after the first t rounds,
and the window with the block's words up to round 16 and the last 16 words from there on. -/
def datapathAt (t : Nat) : CoreRegs n :=
  ⟨((F.k.zip (schedule F blk)).take t).foldl (fun y kw => roundStep F y kw.1 kw.2) (loadWorking h), t,
    ((schedule F blk).drop (t - 16)).take 16⟩

/-- A word of the window, as a word of the schedule. -/
theorem window_getD {i j u : Nat} (hj : j < 16) (hu : i + j = u) :
    (((schedule F blk).drop i).take 16).getD j 0 = (schedule F blk).getD u 0 := by
  simp [List.getD_eq_getElem?_getD, hj, hu]

variable (hk : 16 ≤ F.k.length)
include hk

/-- The window before round 0 is the block's 16 words. -/
theorem datapathLoad_eq : datapathLoad F h blk = datapathAt F h blk 0 := by
  obtain ⟨hlen, hwords, -⟩ := schedule_spec F blk hk
  have hwindow : (schedule F blk).take 16 = blockWords n F.wordBytes blk := by
    apply List.ext_getElem
    · rw [List.length_take, hlen, blockWords_length]; omega
    · intro i hi _
      have hi : i < 16 := by simp at hi; omega
      have := hwords i hi
      rw [List.getD_eq_getElem _ _ (by omega)] at this
      simp [blockWords, this]
  simp [datapathLoad, datapathAt, hwindow]

/-- The word that round t takes is W[t]. -/
theorem datapathWord_eq {t : Nat} (ht : t < F.k.length) :
    datapathWord F (datapathAt F h blk t) = (schedule F blk).getD t 0 := by
  obtain ⟨hlen, -, -⟩ := schedule_spec F blk hk
  by_cases h16 : t < 16
  · rw [datapathWord, datapathAt, if_pos h16, window_getD F blk (u := t) h16 (by omega)]
  · have hwindow : (((schedule F blk).drop (t - 16)).take 16).length = 16 := by
      rw [List.length_take, List.length_drop, hlen]; omega
    rw [datapathWord, datapathAt, if_neg h16, schedule_recurrence F blk hk (by omega) ht, nextWord, hwindow,
      window_getD F blk (j := 16 - 16) (u := t - 16) (by decide) (by omega),
      window_getD F blk (j := 16 - 15) (u := t - 15) (by decide) (by omega),
      window_getD F blk (j := 16 - 7) (u := t - 7) (by decide) (by omega),
      window_getD F blk (j := 16 - 2) (u := t - 2) (by decide) (by omega)]

/-- One step of the datapath is one round, and from round 16 on it shifts the window by one word. -/
theorem datapathStep_eq {t : Nat} (ht : t < F.k.length) :
    datapathStep F (datapathAt F h blk t) = datapathAt F h blk (t + 1) := by
  obtain ⟨hlen, -, -⟩ := schedule_spec F blk hk
  have hw : t < (schedule F blk).length := by omega
  have hround : (F.k.zip (schedule F blk)).take (t + 1) =
      (F.k.zip (schedule F blk)).take t ++ [(F.k.getD t 0, (schedule F blk).getD t 0)] := by
    rw [List.take_succ_eq_append_getElem (by simp; omega), List.getElem_zip, List.getD_eq_getElem _ _ ht,
      List.getD_eq_getElem _ _ hw]
  have hwindow : (if t < 16 then ((schedule F blk).drop (t - 16)).take 16
      else (((schedule F blk).drop (t - 16)).take 16).drop 1 ++ [(schedule F blk).getD t 0]) =
      ((schedule F blk).drop (t + 1 - 16)).take 16 := by
    split
    · congr 2; omega
    · obtain ⟨u, rfl⟩ : ∃ u, t = u + 16 := ⟨t - 16, by omega⟩
      rw [List.getD_eq_getElem _ _ hw, show u + 16 + 1 - 16 = u + 1 by omega, Nat.add_sub_cancel, List.drop_take,
        List.drop_drop, List.take_succ_eq_append_getElem (i := 15) (by simp; omega), List.getElem_drop]
  rw [datapathStep, datapathWord_eq F h blk hk ht, datapathAt, datapathAt, hround, List.foldl_append]
  exact congrArg (CoreRegs.mk _ _) hwindow

theorem datapathRun_eq (m : Nat) : ∀ t, t + m ≤ F.k.length →
    datapathRun F m (datapathAt F h blk t) = datapathAt F h blk (t + m) := by
  induction m with
  | zero => intros; rfl
  | succ m ih =>
    intro t ht
    rw [datapathRun, datapathStep_eq F h blk hk (by omega), ih (t + 1) (by omega), Nat.add_right_comm, Nat.add_assoc]

theorem datapathCompress_eq : datapathCompress F h blk = compress F h blk := by
  rw [datapathCompress, datapathLoad_eq F h blk hk, datapathRun_eq F h blk hk _ _ (by omega), compress, runRounds,
    datapathAt, List.take_of_length_le (by simp)]

end

/-- Settles O53: before each round the window holds the words of the schedule that the round reads. -/
theorem windowDatapathComputesTheCompression : Obligations.WindowDatapathComputesTheCompression :=
  ⟨fun h blk => datapathCompress_eq core32 h blk (by rw [core32_k_length]; decide),
    fun h blk => datapathCompress_eq core64 h blk (by rw [core64_k_length]; decide)⟩

end Sys2Proof.Machine
end

section
/-! PROOFS. 45_variant.md: INIT (R212, R214). -/

namespace Sys2Proof.Machine

/-- Settles O21: the accepted INIT is `performInit` of its row's variant. -/
theorem initStartsAnEmptyMessage : Obligations.InitStartsAnEmptyMessage := fun _ hp =>
  ⟨exec_initOf_accepted .sha224 hp, exec_initOf_accepted .sha256 hp, exec_initOf_accepted .sha384 hp,
    exec_initOf_accepted .sha512 hp, exec_initOf_accepted .sha512_224 hp, exec_initOf_accepted .sha512_256 hp⟩

/-- Settles O22: INIT writes every register of the message and reads none. -/
theorem initReadsNoMessageRegister : Obligations.InitReadsNoMessageRegister := fun v _ _ _ _ _ _ hp =>
  ⟨_, exec_initOf_accepted v hp, exec_initOf_accepted v hp⟩

end Sys2Proof.Machine
end

section
/-! PROOFS. 41_update.md: the effect of UPDATE (R102, R103), its frame (R108) and batched absorption (R105). -/

namespace Sys2Proof.Machine

/-- Settles O27: the byte steps of the payload, as the fold that R102 describes. -/
theorem updateAbsorbsItsPayload : Obligations.UpdateAbsorbsItsPayload := by
  intro d s hp hl
  rw [← absorbAll_eq_foldl]
  exact ⟨_, exec_update_within hp hl, totalLength_add s.variant _ _ hl, rfl, rfl, rfl, rfl,
    (absorbAll_phase d s).trans hp, absorbAll_variant d s, absorbAll_faultCause d s, absorbAll_inbox d s⟩

/-- A buffer byte compared through the total access, as the frame lemmas do. -/
theorem getElem_eq_of_getElem? {a b : Vector Byte 128} {i : Fin 128} (h : a[i.val]? = b[i.val]?) : a[i] = b[i] := by
  simpa using h

/-- Settles O30: an UPDATE that is not performed writes no register of the message, and one that is performed is the byte
steps. -/
theorem updateFrame : Obligations.UpdateFrame := by
  intro d s t h
  rcases exec_cases _ s t h with ⟨hp, rfl⟩ | ⟨c, -, -, rfl⟩ | ⟨v, hv, -⟩ | ⟨d', hd, hp, -, rfl⟩ | ⟨hf, -⟩ | ⟨hf, -⟩
  · exact ⟨rfl, rfl, fun ht => absurd (hp.symm.trans ht) (by decide), fun _ _ _ => rfl⟩
  · exact ⟨rfl, rfl, fun ht => absurd ht (by simp), fun _ _ _ => rfl⟩
  · exact absurd hv (update_ne_initOf v d)
  · cases hd
    refine ⟨absorbAll_variant d s, absorbAll_inbox d s, fun _ => ⟨absorbAll_faultCause d s, hp⟩, fun hc i hi => ?_⟩
    exact getElem_eq_of_getElem? (absorbAll_buf_ne d i.val s hc hi)
  · cases hf
  · cases hf

/-- The second half of batched absorption: from an empty buffer, the full blocks of a byte sequence straight into H, and the
rest of it by byte steps. -/
def absorbBlocksFirst (ds : List Byte) (s : State) : State :=
  let b := (cfg s.variant).blockBytes
  absorbAll (ds.drop (ds.length / b * b)) { s with h := compressBlocks s.variant (ds.length / b) ds s.h }

/-- From an empty buffer that gives what the byte steps give. -/
theorem absorbBlocksFirst_eq (ds : List Byte) (s : State) (hc : s.cursor = 0) :
    (absorbBlocksFirst ds s).h = (absorbAll ds s).h ∧
    (absorbBlocksFirst ds s).cursor = (absorbAll ds s).cursor ∧
    bufRead 0 (absorbAll ds s).cursor.toNat (absorbBlocksFirst ds s).buf =
      bufRead 0 (absorbAll ds s).cursor.toNat (absorbAll ds s).buf := by
  have hb := blockBytes_pos s.variant
  have hlt := Nat.mod_lt ds.length hb
  have hrest : (ds.drop (ds.length / (cfg s.variant).blockBytes * (cfg s.variant).blockBytes)).length =
      ds.length % (cfg s.variant).blockBytes := by
    rw [List.length_drop, Nat.mod_eq_sub_div_mul]
  have hempty : bufRead 0 s.cursor.toNat s.buf = [] := by simp [hc, bufRead]
  obtain ⟨hh, hcursor, hbuf⟩ := absorbAll_spec ds s (by simpa [hc] using hb)
  obtain ⟨hh', hcursor', hbuf'⟩ := absorbAll_spec
    (ds.drop (ds.length / (cfg s.variant).blockBytes * (cfg s.variant).blockBytes))
    { s with h := compressBlocks s.variant (ds.length / (cfg s.variant).blockBytes) ds s.h }
    (by simpa [hc] using hb)
  simp only [hempty, List.nil_append, hrest, Nat.div_eq_of_lt hlt, Nat.mod_eq_of_lt hlt, Nat.zero_mul, List.drop_zero,
    compressBlocks_zero] at hh hcursor hbuf hh' hcursor' hbuf'
  have hsame := BitVec.eq_of_toNat_eq (hcursor'.trans hcursor.symm)
  rw [hsame] at hbuf'
  exact ⟨hh'.trans hh.symm, hsame, hbuf'.trans hbuf.symm⟩

/-- Where the payload completes the buffered block, batched absorption goes on from that block's end. -/
theorem absorbBatched_of_full {d : List Byte} {s : State}
    (hfull : ¬ s.cursor.toNat + d.length < (cfg s.variant).blockBytes) :
    absorbBatched d s = absorbBlocksFirst (d.drop ((cfg s.variant).blockBytes - s.cursor.toNat))
      (absorbAll (d.take ((cfg s.variant).blockBytes - s.cursor.toNat)) s) := by
  simp only [absorbBatched, if_neg hfull, absorbBlocksFirst, absorbAll_variant]

/-- Completing the buffered block empties the buffer. -/
theorem absorbAll_cursor_of_completes {d : List Byte} {s : State} (hc : s.cursor.toNat < (cfg s.variant).blockBytes)
    (hd : s.cursor.toNat + d.length = (cfg s.variant).blockBytes) : (absorbAll d s).cursor = 0 := by
  obtain ⟨-, hcursor, -⟩ := absorbAll_spec d s hc
  rw [length_buffered_append, hd, Nat.mod_self] at hcursor
  exact BitVec.eq_of_toNat_eq hcursor

/-- Settles O32: the bytes up to the end of the buffered block leave an empty buffer, and from there the full blocks are
the same. -/
theorem batchedAbsorptionIsEquivalent : Obligations.BatchedAbsorptionIsEquivalent := by
  intro d s hc
  by_cases hfull : s.cursor.toNat + d.length < (cfg s.variant).blockBytes
  · rw [absorbBatched, if_pos hfull]
    exact ⟨rfl, rfl, rfl, rfl⟩
  · have hempty := absorbAll_cursor_of_completes (d := d.take ((cfg s.variant).blockBytes - s.cursor.toNat)) hc
      (by rw [List.length_take]; omega)
    have heq := absorbBlocksFirst_eq (d.drop ((cfg s.variant).blockBytes - s.cursor.toNat)) _ hempty
    rw [← absorbBatched_of_full hfull, ← absorbAll_append, List.take_append_drop] at heq
    obtain ⟨hh, hcursor, hbuf⟩ := heq
    exact ⟨hh, hcursor, by simp [absorbBatched_of_full hfull, absorbBlocksFirst], hbuf⟩

end Sys2Proof.Machine
end

section
/-! PROOFS. 44_finalize.md: the number of zero bytes (R189), the blocks of Pad() (R181 to R188), and FINALIZE and
FINALIZE_RESET (R193 to R197). -/

namespace Sys2Proof.Machine

/-- Settles O36: a count below the model's that completed a block would be the model's. -/
theorem padZerosIsLeast : Obligations.PadZerosIsLeast := by
  intro v n
  have hlt : padZeros v n < (cfg v).blockBytes := Nat.mod_lt _ (blockBytes_pos v)
  refine ⟨?_, fun k hk hfull => ?_⟩
  · simp only [padZeros, blockBytes_eq_of_core, lenBytes_eq_of_core]
    split <;> omega
  · have := padZeros_eq_of_completes (hk.trans hlt) hfull
    omega

/-! ### The blocks of Pad() -/

theorem paddedBlocks_of_fits {s : State} (h : padOverflows s = false) : paddedBlocks s = [padFitBlock s] := by
  rw [paddedBlocks, h, (pad_fits s h).2]
  rfl

theorem paddedBlocks_of_overflows {s : State} (h : padOverflows s = true)
    (hc : s.cursor.toNat < (cfg s.variant).blockBytes) : paddedBlocks s = [padFirstBlock s, padSecondBlock s] := by
  obtain ⟨-, hfirst, hsecond⟩ := pad_overflows s h hc
  rw [paddedBlocks, if_pos h, hfirst, hsecond]
  rfl

theorem padOverflows_eq_false_iff (s : State) : padOverflows s = false ↔
    s.cursor.toNat + 1 ≤ (cfg s.variant).blockBytes - (cfg s.variant).lenBytes := by
  rw [← Nat.not_lt, ← padOverflows_iff, Bool.not_eq_true]

/-- H takes the blocks of Pad() in order. -/
theorem pad_h (s : State) (hc : s.cursor.toNat < (cfg s.variant).blockBytes) :
    (pad s).h = (paddedBlocks s).foldl (compressWith s.variant) s.h := by
  cases hover : padOverflows s with
  | false => rw [paddedBlocks_of_fits hover, (pad_fits s hover).1]; rfl
  | true => rw [paddedBlocks_of_overflows hover hc, (pad_overflows s hover hc).1]; rfl

/-- Settles O35: the condition of step 2 decides between one block and two. -/
theorem padBuildsOneOrTwoBlocks : Obligations.PadBuildsOneOrTwoBlocks := fun s hc =>
  ⟨fun hfit => paddedBlocks_of_fits ((padOverflows_eq_false_iff s).mpr hfit),
    fun hover => paddedBlocks_of_overflows ((padOverflows_iff s).mpr hover) hc, pad_h s hc⟩

/-! ### FINALIZE and FINALIZE_RESET -/

/-- Pad() writes H and buf alone. -/
theorem pad_eq (s : State) : pad s = { s with h := (pad s).h, buf := (pad s).buf } := by
  unfold pad
  split <;> rfl

/-- Settles O38: what FINALIZE writes besides H and buf is the phase and the response. -/
theorem finalizePadsAndAnswers : Obligations.FinalizePadsAndAnswers := by
  intro s hp
  rw [exec_finalize_active hp, performFinalize, assembleDigest_pad, pad_eq s]
  rfl

/-- Settles O43: the restore is INIT's start of a message, and the phase is ACTIVE already. -/
theorem finalizeResetEqualsInit : Obligations.FinalizeResetEqualsInit := by
  intro s hp
  refine ⟨_, _, exec_finalizeReset_active hp, exec_initOf_accepted s.variant (by simp [hp]), ?_⟩
  rw [performFinalizeReset, startMessage_pad]
  simp [performInit, respond, startMessage, hp]

/-- Settles O40, by the phase checks: a command that is not accepted writes none of these registers, and one that is accepted
writes them by Pad() or the restore alone. -/
theorem finalizeFrame : Obligations.FinalizeFrame := by
  refine ⟨fun s t h => ?_, fun s t h => ?_⟩
  · rcases acceptActive_cases performFinalize s with ⟨hp, he⟩ | ⟨hp, he⟩ | ⟨hp, he⟩ | ⟨hp, he⟩ <;>
      rw [exec_finalize, he] at h <;> obtain rfl := Host.Outcome.next.inj h
    · exact ⟨rfl, rfl, rfl, rfl, fun ht => absurd (hp.symm.trans ht) (by decide), fun _ _ _ => rfl⟩
    · exact ⟨rfl, rfl, rfl, rfl, fun ht => absurd ht (by simp), fun _ _ _ => rfl⟩
    · exact ⟨rfl, rfl, rfl, rfl, fun ht => absurd ht (by simp), fun _ _ _ => rfl⟩
    · refine ⟨pad_variant s, pad_inbox s, pad_cursor s, pad_totalLength s, fun _ => ⟨hp, pad_faultCause s⟩,
        fun hc i hi => ?_⟩
      apply getElem_eq_of_getElem?
      rcases hi with hi | ⟨hfit, hi⟩
      · exact pad_buf_outside s hc i hi
      · exact pad_buf_before s ((padOverflows_eq_false_iff s).mpr hfit) i hi
  · rcases acceptActive_cases performFinalizeReset s with ⟨hp, he⟩ | ⟨hp, he⟩ | ⟨hp, he⟩ | ⟨hp, he⟩ <;>
      rw [exec_finalizeReset, he] at h <;> obtain rfl := Host.Outcome.next.inj h
    · exact ⟨rfl, rfl, fun ht => absurd (hp.symm.trans ht) (by decide)⟩
    · exact ⟨rfl, rfl, fun ht => absurd ht (by simp)⟩
    · exact ⟨rfl, rfl, fun ht => absurd ht (by simp)⟩
    · exact ⟨pad_variant s, pad_inbox s, fun _ => ⟨hp, pad_faultCause s⟩⟩

/-! ### What the finalize commands read (R21, R27) -/

section
variable (s : State) (buf : Vector Byte 128) (h : Vector Word64 8)

/-- The blocks of Pad() read the buffered bytes, and neither the rest of the buffer nor H. -/
theorem paddedBlocks_congr (hc : s.cursor.toNat < (cfg s.variant).blockBytes)
    (hbuf : bufRead 0 s.cursor.toNat buf = bufRead 0 s.cursor.toNat s.buf) :
    paddedBlocks { s with buf := buf, h := h } = paddedBlocks s := by
  cases hover : padOverflows s with
  | false =>
    rw [paddedBlocks_of_fits hover, paddedBlocks_of_fits (s := { s with buf := buf, h := h }) hover]
    simp only [padFitBlock, hbuf]
  | true =>
    rw [paddedBlocks_of_overflows hover hc, paddedBlocks_of_overflows (s := { s with buf := buf, h := h }) hover hc]
    simp only [padFirstBlock, hbuf, padSecondBlock]

/-- A compression reads of H what its core's words hold. -/
theorem compressWith_congr {v : Variant} {h h' : Vector Word64 8}
    (hh : h = h' ∨ ((cfg v).core = .c32 ∧ ∀ i : Fin 8, h[i].setWidth 32 = h'[i].setWidth 32)) (blk : List Byte) :
    compressWith v h blk = compressWith v h' blk := by
  rcases hh with rfl | ⟨hv, hh⟩
  · rfl
  · exact compressWith_c32_congr v hv h h' blk hh

/-- Pad() compresses a block at least, and after the first H is the same. -/
theorem pad_h_congr (hc : s.cursor.toNat < (cfg s.variant).blockBytes)
    (hbuf : bufRead 0 s.cursor.toNat buf = bufRead 0 s.cursor.toNat s.buf)
    (hh : h = s.h ∨ ((cfg s.variant).core = .c32 ∧ ∀ i : Fin 8, h[i].setWidth 32 = s.h[i].setWidth 32)) :
    (pad { s with buf := buf, h := h }).h = (pad s).h := by
  rw [pad_h s hc, pad_h { s with buf := buf, h := h } hc, paddedBlocks_congr s buf h hc hbuf]
  cases hblocks : paddedBlocks s with
  | nil => simp [paddedBlocks] at hblocks
  | cons blk blks => rw [List.foldl_cons, List.foldl_cons, compressWith_congr hh blk]

end

/-- Settles O46: both commands answer the digest of H as Pad() leaves it. -/
theorem finalizeReadsNoStaleBits : Obligations.FinalizeReadsNoStaleBits := by
  intro s buf h hp hc hbuf hh
  have hpad := pad_h_congr s buf h hc hbuf hh
  have hdigest : assembleDigest (pad { s with buf := buf, h := h }) = assembleDigest (pad s) := by
    rw [assembleDigest_pad, assembleDigest_pad, hpad]
  refine ⟨_, _, _, _, exec_finalize_active hp, exec_finalize_active hp, ?_, exec_finalizeReset_active hp,
    exec_finalizeReset_active hp, ?_⟩
  · simp only [performFinalize, respond_response, hdigest]
  · simp only [performFinalizeReset, respond_response, hdigest]

end Sys2Proof.Machine
end

section
/-! PROOFS. 10_state.md: the message the registers stand for (R22, R23, R26, R27), and its digest as the finalize commands
(44_finalize.md R190, R195, R196) and the runs of 30_encoding.md (R83, R84) answer it. -/

namespace Sys2Proof.Machine

/-! ### The absorbed message -/

theorem absorbed_startMessage {s : State} (hp : s.phase = .active) : Absorbed [] (startMessage s) :=
  ⟨hp, Nat.zero_le _, rfl, (Nat.zero_mod _).symm, by simp [hashedWords, fullBlocks], by simp [bufRead, tailBytes]⟩

/-- Settles O33: INIT starts a message of its own variant. -/
theorem initAbsorbsTheEmptyMessage : Obligations.InitAbsorbsTheEmptyMessage := fun v s hp =>
  ⟨_, exec_initOf_accepted v hp, absorbed_startMessage (s := { s with variant := v, phase := .active }) rfl, rfl⟩

/-- An UPDATE within the limit takes the message m to m ++ d. -/
theorem absorbed_update {m d : List Byte} {s : State} (hm : Absorbed m s) (hl : (m ++ d).length ≤ lmax s.variant) :
    ∃ t, exec (.update d) s = .next t ∧ Absorbed (m ++ d) t ∧ t.variant = s.variant ∧ t.response = some ⟨.ok, []⟩ := by
  obtain ⟨hp, -, hlength, hcursor, hwords, htail⟩ := hm
  have hwithin : s.totalLength.toNat + d.length ≤ lmax s.variant := by rwa [hlength, ← List.length_append]
  have hc : s.cursor.toNat < (cfg s.variant).blockBytes := hcursor ▸ Nat.mod_lt _ (blockBytes_pos _)
  obtain ⟨hh, hcur, hbuf⟩ := absorbAll_spec d s hc
  obtain ⟨hwords', htail', hlength'⟩ := hashedWords_append s.variant m d
  rw [htail] at hh hcur hbuf
  refine ⟨_, exec_update_within hp hwithin, ⟨(absorbAll_phase d s).trans hp, ?_, ?_, ?_, ?_, ?_⟩,
    absorbAll_variant d s, rfl⟩ <;>
    simp only [respond_variant, respond_totalLength, respond_cursor, respond_h, respond_buf, absorbAll_variant]
  · exact hl
  · rw [totalLength_add s.variant _ _ hwithin, hlength, List.length_append]
  · rw [hcur, hlength']
  · rw [hh, hwords, hwords']
  · rw [hbuf, htail']

/-- Settles O34: the byte steps take the full blocks of the buffered rest of m followed by d, which are those of m ++ d
behind m's own. -/
theorem updateAppendsToTheMessage : Obligations.UpdateAppendsToTheMessage := fun _ _ _ => absorbed_update

/-! ### The digest of the absorbed message -/

theorem length_of_mem_paddedBlocks {s : State} {blk : List Byte} (h : blk ∈ paddedBlocks s) :
    blk.length = (cfg s.variant).blockBytes := by
  have hb := blockBytes_le s.variant
  have hread (buf : Vector Byte 128) : (bufRead 0 (cfg s.variant).blockBytes buf).length = (cfg s.variant).blockBytes := by
    rw [bufRead_length]; omega
  rw [paddedBlocks, List.mem_append, List.mem_singleton] at h
  rcases h with h | rfl
  · split at h
    · rw [List.mem_singleton.mp h, hread]
    · cases h
  · exact hread _

/-- Compressing whole blocks one after the other is compressing the bytes they make up (R22). -/
theorem compressBlocks_flatten (v : Variant) : ∀ (blks : List (List Byte)) (h : Vector Word64 8),
    (∀ blk ∈ blks, blk.length = (cfg v).blockBytes) →
    compressBlocks v (blks.flatten.length / (cfg v).blockBytes) blks.flatten h = blks.foldl (compressWith v) h := by
  intro blks
  induction blks with
  | nil => intro h _; simp
  | cons blk blks ih =>
    intro h hblks
    have hblk : blk.length = (cfg v).blockBytes := hblks blk (by simp)
    have hdiv : (blk :: blks).flatten.length / (cfg v).blockBytes =
        blks.flatten.length / (cfg v).blockBytes + 1 := by
      rw [List.flatten_cons, List.length_append, hblk, Nat.add_div_left _ (blockBytes_pos v)]
    rw [hdiv, compressBlocks, List.flatten_cons, ← hblk, List.drop_left, List.take_left, List.foldl_cons, hblk]
    exact ih _ fun b hb => hblks b (by simp [hb])

/-- Pad() takes H from the full blocks of the message to all blocks of the padded message (R189, R190). -/
theorem pad_h_of_absorbed {m : List Byte} {s : State} (hm : Absorbed m s) :
    (pad s).h = hashedWords s.variant (paddedMessage s.variant m) := by
  obtain ⟨-, -, hlength, hcursor, hwords, htail⟩ := hm
  have hc : s.cursor.toNat < (cfg s.variant).blockBytes := hcursor ▸ Nat.mod_lt _ (blockBytes_pos _)
  have hblocks : (paddedBlocks s).flatten = tailBytes s.variant m ++
      ([0x80] ++ List.replicate (padZeros s.variant m.length) 0 ++ beBytes (cfg s.variant).lenBytes (8 * m.length)) := by
    rw [paddedBlocks_flatten s hc, htail, hcursor, padZeros_mod, lengthField, hlength]
    simp only [List.append_assoc]
  rw [paddedMessage, List.append_assoc, List.append_assoc, ← List.append_assoc [_],
    (hashedWords_append s.variant m _).1, ← hblocks, ← hwords,
    compressBlocks_flatten _ _ _ fun blk => length_of_mem_paddedBlocks, pad_h s hc]

theorem assembleDigest_pad_of_absorbed {m : List Byte} {s : State} (hm : Absorbed m s) :
    assembleDigest (pad s) = sha2 s.variant m := by
  rw [assembleDigest_pad, pad_h_of_absorbed hm, sha2]

theorem absorbed_finalize {m : List Byte} {s : State} (hm : Absorbed m s) :
    ∃ t, exec .finalize s = .next t ∧ t.phase = .consumed ∧ t.response = some ⟨.ok, sha2 s.variant m⟩ :=
  ⟨_, exec_finalize_active hm.1, rfl, by rw [performFinalize, respond_response, assembleDigest_pad_of_absorbed hm]⟩

/-- Settles O41: Pad() compresses the rest of the padded message, and the digest is assembled from H after it. -/
theorem finalizeAnswersTheDigest : Obligations.FinalizeAnswersTheDigest := fun _ _ => absorbed_finalize

/-- Settles O42: the restore is the start of a message. -/
theorem finalizeResetAnswersTheDigest : Obligations.FinalizeResetAnswersTheDigest := by
  intro m s hm
  refine ⟨_, exec_finalizeReset_active hm.1, ?_, ?_, pad_variant s⟩
  · rw [performFinalizeReset, respond_response, assembleDigest_pad_of_absorbed hm]
  · exact absorbed_startMessage ((pad_phase s).trans hm.1)

/-! ### The digest of a run (R83, R84, R109) -/

/-- A run that begins with an encoded command: the command's own effect, then the rest of the run. -/
theorem observe_encode_cons {i : Instr} {cs : List Command} {s t u : State} {r : Response} {rs : List Response}
    (hexec : exec i { s with response := none } = .next t) (hr : t.response = some r)
    (hrest : observe cs { t with response := none } = some (rs, u)) :
    observe (encode i :: cs) s = some (r :: rs, u) := by
  have hstep : step (s.offer (encode i)) = .next t :=
    (step_legal (s := s.offer (encode i)) rfl rfl (decode_encode i)).trans hexec
  simp only [observe, transact, hstep, hr, hrest]

/-- UPDATEs and a FINALIZE on an engine that has absorbed m, by induction on the payloads. -/
theorem observe_updates_finalize (v : Variant) (ps : List (List Byte)) : ∀ (m : List Byte) (s : State), s.variant = v →
    Absorbed m s → (m ++ ps.flatten).length ≤ lmax v →
    ∃ t, observe ((updateStar ps ++ [Instr.finalize]).map encode) s =
      some (List.replicate ps.length ⟨.ok, []⟩ ++ [⟨.ok, sha2 v (m ++ ps.flatten)⟩], t) ∧ t.phase = .consumed := by
  induction ps with
  | nil =>
    rintro m s rfl hm -
    obtain ⟨t, hexec, hp, hr⟩ := absorbed_finalize (s := { s with response := none }) hm
    rw [List.flatten_nil, List.append_nil]
    exact ⟨_, observe_encode_cons hexec hr rfl, hp⟩
  | cons d ps ih =>
    intro m s hv hm hl
    rw [List.flatten_cons, ← List.append_assoc] at hl ⊢
    have hfirst : (m ++ d).length ≤ lmax s.variant := by
      rw [hv]
      rw [List.length_append] at hl
      omega
    obtain ⟨t, hexec, ht, htv, hr⟩ := absorbed_update (s := { s with response := none }) hm hfirst
    obtain ⟨u, hrest, hp⟩ := ih (m ++ d) { t with response := none } (htv.trans hv) ht hl
    exact ⟨u, observe_encode_cons hexec hr hrest, hp⟩

/-- A whole run: INIT, any number of UPDATEs and FINALIZE. -/
theorem observe_init_updates_finalize (v : Variant) (ps : List (List Byte)) (s : State) (hp : s.phase ≠ .faulted)
    (hl : ps.flatten.length ≤ lmax v) :
    ∃ t, observe ((initOf v :: (updateStar ps ++ [.finalize])).map encode) s =
      some (List.replicate (ps.length + 1) ⟨.ok, []⟩ ++ [⟨.ok, sha2 v ps.flatten⟩], t) ∧ t.phase = .consumed := by
  have habsorbed : Absorbed [] { performInit v { s with response := none } with response := none } :=
    absorbed_startMessage (s := { s with variant := v, phase := .active, response := none }) rfl
  obtain ⟨t, hrest, ht⟩ := observe_updates_finalize v ps [] _ rfl habsorbed hl
  exact ⟨t, observe_encode_cons (exec_initOf_accepted (s := { s with response := none }) v hp) rfl hrest, ht⟩

/-- Settles O45: each UPDATE of the run appends its payload to the absorbed message. -/
theorem runAnswersTheDigestOfTheWholeMessage : Obligations.RunAnswersTheDigestOfTheWholeMessage := by
  intro v ps s hp hl
  obtain ⟨t, hrun, -⟩ := observe_init_updates_finalize v ps s hp hl
  exact ⟨t, hrun⟩

/-- Settles O44: HASH is the run with one payload. -/
theorem hashAnswersTheDigest : Obligations.HashAnswersTheDigest := by
  intro v d s hp hl
  have hflat : [d].flatten = d := List.flatten_singleton
  have hrun := observe_init_updates_finalize v [d] s hp (hflat.symm ▸ hl)
  rwa [hflat] at hrun

end Sys2Proof.Machine
end

section
/-! PROOFS. 10_state.md: the invariant of the engine (R21, R24 to R27, R30, R32). -/

namespace Sys2Proof.Machine

/-- Settles O55: no cause is latched, and the message registers are not spoken of in UNCONFIGURED. -/
theorem resetMeetsTheInvariant : Obligations.ResetMeetsTheInvariant :=
  ⟨by decide, fun h => absurd h (by decide)⟩

/-! ### Upper halves in a C32 variant (R21, R25) -/

theorem foldl_compressWith_c32_lt {v : Variant} (hv : (cfg v).core = .c32) (blks : List (List Byte)) :
    ∀ h : Vector Word64 8, (∀ i : Fin 8, h[i].toNat < 2 ^ 32) →
      ∀ i : Fin 8, (blks.foldl (compressWith v) h)[i].toNat < 2 ^ 32 := by
  induction blks with
  | nil => exact fun _ hh => hh
  | cons blk blks ih => exact fun h _ => ih _ (compressWith_c32_lt v hv h blk)

/-! ### The invariant of each effect -/

section
variable {s : State}

theorem messageInv_cursor_lt (h : MessageInv s) : s.cursor.toNat < (cfg s.variant).blockBytes :=
  h.1 ▸ Nat.mod_lt _ (blockBytes_pos _)

theorem messageInv_startMessage (s : State) : MessageInv (startMessage s) :=
  ⟨(Nat.zero_mod _).symm, Nat.zero_le _, fun hv => ⟨iv_c32_lt s.variant hv, fun i _ => by simp⟩⟩

/-- The payload lands in the block, so in a C32 variant on no byte from 64 on. -/
theorem messageInv_absorb {d : List Byte} (h : MessageInv s) (hl : s.totalLength.toNat + d.length ≤ lmax s.variant) :
    MessageInv { absorbAll d s with totalLength := s.totalLength + BitVec.ofNat 128 d.length } := by
  have hc := messageInv_cursor_lt h
  obtain ⟨hcursor, -, hupper⟩ := h
  obtain ⟨-, hcur, -⟩ := absorbAll_spec d s hc
  simp only [MessageInv, absorbAll_variant, totalLength_add s.variant _ _ hl]
  refine ⟨?_, hl, fun hv => ⟨?_, fun i hi => ?_⟩⟩
  · rw [hcur, length_buffered_append, hcursor, Nat.mod_add_mod]
  · rw [absorbAll_h d s hc]
    exact foldl_compressWith_c32_lt hv _ _ (hupper hv).1
  · have hb : (cfg s.variant).blockBytes = 64 := by simp [blockBytes_eq_of_core, hv]
    have hbyte := absorbAll_buf_ne d i.val s hc fun j _ => by rw [hb]; omega
    exact (getElem_eq_of_getElem? hbyte).trans ((hupper hv).2 i hi)

/-- Pad() leaves the cursor and the counter, and in a C32 variant writes the block alone. -/
theorem messageInv_pad (h : MessageInv s) : MessageInv (pad s) := by
  have hc := messageInv_cursor_lt h
  obtain ⟨hcursor, hl, hupper⟩ := h
  simp only [MessageInv, pad_variant, pad_cursor, pad_totalLength]
  refine ⟨hcursor, hl, fun hv => ⟨?_, fun i hi => ?_⟩⟩
  · rw [pad_h s hc]
    exact foldl_compressWith_c32_lt hv _ _ (hupper hv).1
  · have hb : (cfg s.variant).blockBytes = 64 := by simp [blockBytes_eq_of_core, hv]
    have hbyte := pad_buf_outside s hc i.val (by omega)
    exact (getElem_eq_of_getElem? hbyte).trans ((hupper hv).2 i hi)

/-- Outside FAULTED the invariant asks for no latched cause, and for the message registers in ACTIVE and CONSUMED. -/
theorem inv_of_not_faulted (hp : s.phase ≠ .faulted) (hc : s.faultCause = .none) (hm : MessageInv s) : Inv s :=
  ⟨iff_of_false hp (by simp [hc]), fun _ => hm⟩

theorem faultCause_eq_none_of_inv (h : Inv s) (hp : s.phase ≠ .faulted) : s.faultCause = .none := by
  by_contra hne
  exact hp (h.1.mpr hne)

/-- A fault latches its cause; the two that leave the message registers with values arise where they had them. -/
theorem inv_raiseFault (h : Inv s) {c : Cause} (hc : c ≠ .none)
    (hconf : c = .useAfterFinalize ∨ c = .lengthOverflow → Configured s) : Inv (raiseFault c s) :=
  ⟨iff_of_true rfl hc, fun ht => h.2 (hconf (by simpa [Configured] using ht))⟩

end

/-- Every command keeps the invariant, by what it can do. -/
theorem inv_exec {i : Instr} {s t : State} (h : Inv s) (ht : exec i s = .next t) : Inv t := by
  rcases exec_cases i s t ht with ⟨-, rfl⟩ | ⟨c, -, hc, rfl⟩ | ⟨v, -, hp, rfl⟩ | ⟨d, -, hp, hl, rfl⟩ |
    ⟨-, hp, rfl⟩ | ⟨-, hp, rfl⟩
  · exact h
  · rcases hc with ⟨-, rfl⟩ | ⟨hp, rfl⟩ | ⟨hp, rfl, -⟩ <;> refine inv_raiseFault h (by decide) fun hc => ?_
    · exact absurd hc (by decide)
    · exact .inr (.inl hp)
    · exact .inl hp
  · exact inv_of_not_faulted (by simp [performInit]) (faultCause_eq_none_of_inv (s := s) h hp)
      (messageInv_startMessage { s with variant := v })
  all_goals have hne : s.phase ≠ .faulted := by simp [hp]
  · exact inv_of_not_faulted (by simpa using hne) ((absorbAll_faultCause d s).trans (faultCause_eq_none_of_inv h hne))
      (messageInv_absorb (h.2 (.inl hp)) hl)
  · exact inv_of_not_faulted (by simp [performFinalize]) ((pad_faultCause s).trans (faultCause_eq_none_of_inv h hne))
      (messageInv_pad (h.2 (.inl hp)))
  · exact inv_of_not_faulted (by simpa [performFinalizeReset] using hne)
      ((pad_faultCause s).trans (faultCause_eq_none_of_inv h hne)) (messageInv_startMessage (pad s))

/-- Settles O56, by the host's next event. -/
theorem stepKeepsTheInvariant : Obligations.StepKeepsTheInvariant := by
  intro s t h ht
  rcases step_cases s t ht with ⟨-, rfl⟩ | ⟨rest, -, rfl⟩ | ⟨rest, -, rfl⟩ | ⟨c, rest, -, -, rfl⟩ |
    ⟨c, rest, -, -, -, -, rfl⟩ | ⟨c, rest, i, -, -, -, hexec⟩
  · exact h
  · exact h
  · exact resetMeetsTheInvariant
  · exact resetMeetsTheInvariant
  · rcases illegalCommand_cases { s with inbox := rest } with ⟨-, he⟩ | ⟨-, he⟩ <;> rw [he]
    · exact h
    · exact inv_raiseFault (s := { s with inbox := rest }) h (by decide) fun hc => absurd hc (by decide)
  · exact inv_exec (s := { s with inbox := rest }) h hexec

end Sys2Proof.Machine
end
